-- ==== Sys2Proof/Word.lean ====
section
/-!
DEFINITION. The word types of chip8_cpu_core and the names of its register and key indices
(spec/00_scope.md R7, R8; spec/10_state.md R21, R34). All values are unsigned.
-/

namespace Sys2Proof

/-- An 8-bit value: a V register, a timer, SP, a RAM cell (R21, R27, R29, R30). -/
abbrev Byte := BitVec 8

/-- A 16-bit value: PC, I, a STACK slot, HELD, an instruction word (R23, R26, R28, R33, R90). -/
abbrev Word := BitVec 16

/-- The 12-bit address field `nnn` of an instruction word (R93). -/
abbrev Addr12 := BitVec 12

/-- The index of a general register: 0 is V0, 10 is VA, 15 is VF (R21). -/
abbrev Reg := Fin 16

/-- A key of the hex keypad, 0x0..0xF (R33, R34). -/
abbrev Key := Fin 16

/-- VF, the only flag of the hardware (R22). -/
abbrev Reg.vf : Reg := 15

end Sys2Proof
end

