-- ==== Sys2Proof/Config.lean ====
section
/-!
DEFINITION. What the spec leaves to the host or fixes once for the machine (spec/00_scope.md R6). The font table,
the one parameter with a default, stands in Sys2Proof/Machine/Font.lean.
-/

namespace Sys2Proof.Config

/-- `RandomByte()`: the byte the host supplies to the n-th execution of Cxkk, under no law (spec/41_alu.md R164,
decision D14). It has no body, so whatever is proved holds for every sequence of bytes. Log entry 3. -/
opaque freeByte : Nat → Byte

/-- PROGRAM_BASE: the first byte of a loaded program and the reset value of PC (R6). -/
abbrev programBase : Nat := 0x200

/-- MAX_ROM: the largest accepted program image, 4096 - 0x200 bytes (R6). -/
abbrev maxRom : Nat := 3584

end Sys2Proof.Config
end

