-- ==== Sys2Proof/Syntax.lean ====
section
/-!
DEFINITION. The 35 instructions of the opcode map (spec/30_encoding.md R95, spec/opcode_table.json), one
constructor per row, in the table's order. Operands are those of R93: `x` and `y` name registers, `kk` is an
8-bit immediate, `nnn` a 12-bit address, `n` a sprite height 0..15.
-/

namespace Sys2Proof

/-- The syntax of the machine. `shr` and `shl` carry the field `y`, which is decoded and ignored, and `sys`
carries `nnn`, likewise ignored (R98): so no bit of a word is lost in decoding. -/
inductive Instr where
  /-- `0nnn`, every word 0x0nnn but 0x00E0 and 0x00EE (R121). -/
  | sys (nnn : Addr12)
  /-- `00E0` (R180). -/
  | cls
  /-- `00EE` (R122). -/
  | ret
  /-- `1nnn` (R123). -/
  | jp (nnn : Addr12)
  /-- `2nnn` (R124). -/
  | call (nnn : Addr12)
  /-- `3xkk` (R125). -/
  | seImm (x : Reg) (kk : Byte)
  /-- `4xkk` (R126). -/
  | sneImm (x : Reg) (kk : Byte)
  /-- `5xy0` (R127). -/
  | seReg (x y : Reg)
  /-- `6xkk` (R151). -/
  | ldImm (x : Reg) (kk : Byte)
  /-- `7xkk` (R152). -/
  | addImm (x : Reg) (kk : Byte)
  /-- `8xy0` (R153). -/
  | ldReg (x y : Reg)
  /-- `8xy1` (R154). -/
  | orReg (x y : Reg)
  /-- `8xy2` (R155). -/
  | andReg (x y : Reg)
  /-- `8xy3` (R156). -/
  | xorReg (x y : Reg)
  /-- `8xy4` (R157). -/
  | addReg (x y : Reg)
  /-- `8xy5` (R158). -/
  | sub (x y : Reg)
  /-- `8xy6`, y ignored (R159). -/
  | shr (x y : Reg)
  /-- `8xy7` (R160). -/
  | subn (x y : Reg)
  /-- `8xyE`, y ignored (R161). -/
  | shl (x y : Reg)
  /-- `9xy0` (R128). -/
  | sneReg (x y : Reg)
  /-- `Annn` (R201). -/
  | ldI (nnn : Addr12)
  /-- `Bnnn` (R129). -/
  | jpV0 (nnn : Addr12)
  /-- `Cxkk` (R163). -/
  | rnd (x : Reg) (kk : Byte)
  /-- `Dxyn` (R182). -/
  | drw (x y : Reg) (n : Fin 16)
  /-- `Ex9E` (R191). -/
  | skp (x : Reg)
  /-- `ExA1` (R192). -/
  | sknp (x : Reg)
  /-- `Fx07` (R202). -/
  | ldVxDt (x : Reg)
  /-- `Fx0A` (R193). -/
  | ldVxK (x : Reg)
  /-- `Fx15` (R203). -/
  | ldDtVx (x : Reg)
  /-- `Fx18` (R204). -/
  | ldStVx (x : Reg)
  /-- `Fx1E` (R205). -/
  | addIVx (x : Reg)
  /-- `Fx29` (R206). -/
  | ldFVx (x : Reg)
  /-- `Fx33` (R207). -/
  | ldBVx (x : Reg)
  /-- `Fx55` (R208). -/
  | ldMemVx (x : Reg)
  /-- `Fx65` (R209). -/
  | ldVxMem (x : Reg)
  deriving DecidableEq, Repr

end Sys2Proof
end

