-- ==== Sys2Proof/Machine/State.lean ====
section
/-!
DEFINITION. The architectural state of chip8_cpu_core (spec/10_state.md R20: "the following and nothing else"),
the events of its host (spec/00_scope.md R10), the reasons a step can stop, and the machine right after RESET
(R38, spec/70_reset_and_hazards.md R260).
-/

namespace Sys2Proof.Machine

/-- RAM as the list of the (address, byte) pairs that differ from the reset contents, addresses strictly rising
(spec/20_memory.md R60; the canonical form is `Memory.wf` in Sys2Proof/Machine/Memory.lean). -/
abbrev Memory := List Host.Cell

/-- FB: 32 rows of 64 pixels, row 0 at the top, column 0 at the left (R32). -/
abbrev Framebuffer := Vector (Vector Bool 64) 32

/-- The kinds of fault the core records (R35, spec/60_exceptions.md R220). -/
inductive FaultKind where
  /-- A reserved word was fetched for execution (R221). -/
  | decodeFault
  /-- `00EE` with SP = 0 (R222). -/
  | stackUnderflow
  /-- `2nnn` with SP = 16 (R223). -/
  | stackOverflow
  deriving DecidableEq, Repr

/-- The six events by which the host drives the core, each atomic (R10, R234). -/
inductive Event where
  /-- RESET (R260). -/
  | reset
  /-- LOAD(rom) (R261, R264). -/
  | load (rom : List Byte)
  /-- STEP: one instruction (R234). -/
  | step
  /-- TICK60: one decrement of the timers (R237). -/
  | tick60
  /-- KEY_DOWN(h) (R235). -/
  | keyDown (h : Key)
  /-- KEY_UP(h) (R236). -/
  | keyUp (h : Key)
  deriving DecidableEq, Repr

/-- The state of the core, R20 field by field, and two fields of the model's own (`draws`, `schedule`). -/
structure State where
  /-- V0..VF (R21); `v[15]` is VF (R22). -/
  v : Vector Byte 16
  /-- The program counter: 16 bits, always a 12-bit value (R23, R24). -/
  pc : Word
  /-- The index register I (R26). -/
  i : Word
  /-- The stack pointer SP: how many return addresses are on the stack, 0..16 (R27). -/
  sp : Byte
  /-- STACK[0..15] (R28). -/
  stack : Vector Word 16
  /-- The delay timer DT (R29). -/
  dt : Byte
  /-- The sound timer ST (R29). -/
  st : Byte
  /-- RAM (R30). -/
  mem : Memory
  /-- FB (R32). -/
  fb : Framebuffer
  /-- HELD: bit h is 1 when key h is held (R33). -/
  held : Word
  /-- EDGE: the most recent unconsumed key-down edge (R34). -/
  edge : Option Key
  /-- FAULT: `none` while the core runs (R35). -/
  fault : Option FaultKind
  /-- DESIGN CHOICE (log entry 3), the model's own: how many random bytes have been drawn. -/
  draws : Nat
  /-- DESIGN CHOICE (log entry 2), the model's own: the events the host is still to send, the next one first; when
  none is listed the host sends STEP. -/
  schedule : List Event
  deriving DecidableEq, Repr

/-- How a step can stop outside the machine's own state. The three faults of the core are none of these: they are
next states with FAULT set (R224). -/
inductive Fault where
  /-- Raised by `2nnn` and `00EE` when SP is above 16, so that the STACK slot they would use does not exist. SAFE:
  the spec says that SP is never above 16 (R27, R37), and no step from a state that meets
  `Sys2Proof.Safety.Inv` raises it. Log entry 4. -/
  | noSuchStackSlot
  deriving DecidableEq, Repr

/-- Why the model gives an instruction no meaning. -/
inductive Refusal where
  /-- Raised by an arm of `exec` for an instruction without a meaning: SAFE. No arm of this model raises it. -/
  | notModelled (mnemonic : String)
  deriving DecidableEq, Repr

/-- The machine right after RESET (R38, R260). RAM holds its reset contents, so nothing is listed. The two fields
of the model's own start at 0 draws and with no event scheduled (log entries 2 and 3). -/
def State.reset : State where
  v := Vector.replicate 16 0#8
  pc := 0x0200#16
  i := 0#16
  sp := 0#8
  stack := Vector.replicate 16 0#16
  dt := 0#8
  st := 0#8
  mem := []
  fb := Vector.replicate 32 (Vector.replicate 64 false)
  held := 0#16
  edge := none
  fault := none
  draws := 0
  schedule := []

end Sys2Proof.Machine
end

