-- ==== Sys2Proof/Machine/Memory.lean ====
section
/-!
DEFINITION. RAM as data: reading and writing one byte of the list of cells, and its canonical form
(spec/20_memory.md R60 to R62). Addresses here are already reduced to 12 bits; `State.memRead` and
`State.memWrite` (Sys2Proof/Machine/Ops.lean) reduce them.
-/

namespace Sys2Proof.Machine

/-- The byte at address `a`: the listed one, else the reset contents. -/
def Memory.read : Memory → Nat → Byte
  | [], a => resetByte a
  | (b, v) :: m, a => if a = b then v else Memory.read m a

/-- The memory without its cells at address `a`. -/
def Memory.erase (m : Memory) (a : Nat) : Memory := m.filter fun c => c.1 != a

/-- A cell put in before the first one with a higher address. -/
def Memory.insert : Memory → Nat → Byte → Memory
  | [], a, v => [(a, v)]
  | (b, w) :: m, a, v => if b < a then (b, w) :: Memory.insert m a v else (a, v) :: (b, w) :: m

/-- The memory with byte `v` at address `a`. A byte equal to the reset contents is not listed, so that equal
memories are equal lists. -/
def Memory.write (m : Memory) (a : Nat) (v : Byte) : Memory :=
  if v = resetByte a then Memory.erase m a else Memory.insert (Memory.erase m a) a v

/-- Every cell lies at an address of `lo` or above, addresses rise strictly and stay below 4096, and no cell holds
what an unlisted address reads as. -/
def Memory.wfFrom : Nat → Memory → Bool
  | _, [] => true
  | lo, (a, v) :: m => decide (lo ≤ a) && decide (a < 4096) && v != resetByte a && Memory.wfFrom (a + 1) m

/-- The canonical form of RAM. -/
def Memory.wf (m : Memory) : Bool := Memory.wfFrom 0 m

end Sys2Proof.Machine
end

