-- ==== Sys2Proof/Machine/Ops.lean ====
section
/-!
DEFINITION. The named operations over the state that the instruction meanings are built from: the pseudocode
primitives of spec/00_scope.md R8, and raising a fault (spec/60_exceptions.md R224).
-/

namespace Sys2Proof.Machine

/-! ### General registers (R21) -/

/-- `V[r]`. -/
def State.reg (s : State) (r : Reg) : Byte := s.v[r.val]

/-- `V[r] <- b`. No register is hardwired (R21). -/
def State.setReg (s : State) (r : Reg) (b : Byte) : State := { s with v := s.v.set r.val b }

/-! ### Program counter (R23 to R25) -/

/-- `pc <- t`: every write to PC stores the value reduced to 12 bits (R24, decision D2). -/
def State.setPc (s : State) (t : Nat) : State := { s with pc := BitVec.ofNat 16 (t % 4096) }

/-- `pc <- pc + 2`, the sequential successor (R25). -/
def State.advance (s : State) : State := s.setPc (s.pc.toNat + 2)

/-- `if b then pc <- pc + 4 else pc <- pc + 2` (R25, spec/40_control.md R120). -/
def State.skipIf (s : State) (b : Bool) : State := s.setPc (s.pc.toNat + if b then 4 else 2)

/-! ### RAM (spec/20_memory.md R61, R62) -/

/-- `MemRead(a, 1)`: the byte at `a & 0xFFF`. -/
def State.memRead (s : State) (a : Nat) : Byte := Memory.read s.mem (a % 4096)

/-- `MemWrite(a, 1, b)`: `RAM[a & 0xFFF] <- b`. -/
def State.memWrite (s : State) (a : Nat) (b : Byte) : State := { s with mem := Memory.write s.mem (a % 4096) b }

/-! ### Stack (R27, R28)

Both operations answer `none` where the slot does not exist; the meanings of `2nnn` and `00EE` test SP first. -/

/-- `STACK[SP] <- a; SP <- SP + 1`. -/
def State.push (s : State) (a : Word) : Option State :=
  if h : s.sp.toNat < 16 then some { s with stack := s.stack.set s.sp.toNat a, sp := s.sp + 1#8 } else none

/-- `SP <- SP - 1`, and the value of `STACK[SP]` then; the slot keeps its value (R28). -/
def State.pop (s : State) : Option (Word × State) :=
  if h : 0 < s.sp.toNat ∧ s.sp.toNat ≤ 16 then
    some (s.stack[s.sp.toNat - 1]'(by omega), { s with sp := s.sp - 1#8 })
  else none

/-! ### Pixels (R32) -/

/-- `FB[py][px]`. -/
def Framebuffer.pixel (fb : Framebuffer) (py : Fin 32) (px : Fin 64) : Bool := (fb[py.val])[px.val]

/-- `FB[py][px] <- b`. -/
def Framebuffer.setPixel (fb : Framebuffer) (py : Fin 32) (px : Fin 64) (b : Bool) : Framebuffer :=
  fb.set py.val ((fb[py.val]).set px.val b)

/-- FB with every pixel 0. -/
def Framebuffer.blank : Framebuffer := Vector.replicate 32 (Vector.replicate 64 false)

/-! ### Random bytes (spec/41_alu.md R164) -/

/-- `RandomByte()`: the byte the host supplies to this execution, a free value (log entry 3). -/
def State.randomByte (s : State) : Byte := Config.freeByte s.draws

/-- The byte has been drawn: the next execution is given another. -/
def State.drawn (s : State) : State := { s with draws := s.draws + 1 }

/-! ### Faults (R224)

This is the whole of taking an exception on this hardware: no vector, no saved state, no mode (R231). Nothing
returns from one; FAULT is cleared by RESET and LOAD alone (R227), in Sys2Proof/Machine/Events.lean. -/

/-- `raise k`: FAULT is set and nothing else changes; pc stays on the faulting instruction (R224). -/
def State.raise (s : State) (k : FaultKind) : State := { s with fault := some k }

end Sys2Proof.Machine
end

