-- ==== Sys2Proof/Machine/Operands.lean ====
section
/-!
DEFINITION. The operand forms: how an instruction obtains a value or an address from its fields and the state
(spec/30_encoding.md R93, spec/20_memory.md R63). A register operand is `State.reg`, an immediate kk is itself.
-/

namespace Sys2Proof.Machine

/-- The one data addressing mode: `(I + k) & 0xFFF`, summed on the full 16-bit I and then masked (R63). -/
def State.ea (s : State) (k : Nat) : Nat := (s.i.toNat + k) % 4096

/-- The key an instruction selects through Vx: its low four bits (spec/43_keypad.md R190). -/
def State.keyOf (s : State) (x : Reg) : Key := ⟨(s.reg x).toNat % 16, Nat.mod_lt _ (by decide)⟩

/-- Bit `k` of HELD (R33). -/
def State.isHeld (s : State) (k : Key) : Bool := s.held.getLsbD k.val

/-- A key as the byte Fx0A stores, 0..15 (R193). -/
def keyByte (k : Key) : Byte := BitVec.ofNat 8 k.val

/-- The address of the glyph a byte selects: 5 times its low four bits (spec/44_timer_index_memory.md R206). -/
def glyphAddress (b : Byte) : Word := BitVec.ofNat 16 (5 * (b.toNat % 16))

/-- The three decimal digits of a byte, hundreds, tens, ones (R207). -/
def bcdDigit (b : Byte) : Fin 3 → Byte
  | 0 => BitVec.ofNat 8 (b.toNat / 100)
  | 1 => BitVec.ofNat 8 (b.toNat / 10 % 10)
  | 2 => BitVec.ofNat 8 (b.toNat % 10)

/-- Column `c` (0..7) of a sprite row, 0 the leftmost: bit 7 - c (spec/42_display.md R181). -/
def spriteBit (row : Byte) (c : Nat) : Bool := row.getLsbD (7 - c)

/-- A screen column: `n mod 64` (spec/42_display.md R182). -/
def colAt (n : Nat) : Fin 64 := ⟨n % 64, Nat.mod_lt n (by decide)⟩

/-- A screen row: `n mod 32` (R182). -/
def rowAt (n : Nat) : Fin 32 := ⟨n % 32, Nat.mod_lt n (by decide)⟩

/-- The register of number `k`, 0..15: the loop variable of R208 and R209. -/
def regAt (k : Nat) : Reg := ⟨k % 16, Nat.mod_lt k (by decide)⟩

end Sys2Proof.Machine
end

