-- ==== Sys2Proof/Machine/Flags.lean ====
section
/-!
DEFINITION. Every flag computation of the hardware. VF is the only flag, always 0 or 1, and the flag write is the
last write of the instruction (spec/10_state.md R22, spec/41_alu.md R150).
-/

namespace Sys2Proof.Machine

/-- A flag as the byte VF holds. -/
def flagByte (b : Bool) : Byte := if b then 1#8 else 0#8

/-- The carry out of bit 7: `a + b > 255` (R157). -/
def carryFlag (a b : Byte) : Byte := flagByte (decide (255 < a.toNat + b.toNat))

/-- No borrow in `a - b`: `a >= b`, on the values before the subtraction (R158, R160). -/
def noBorrowFlag (a b : Byte) : Byte := flagByte (decide (b.toNat ≤ a.toNat))

/-- The bit a right shift loses: `a & 1` (R159). -/
def lowBitFlag (a : Byte) : Byte := a &&& 1#8

/-- The bit a left shift loses: `(a >> 7) & 1` (R161). -/
def highBitFlag (a : Byte) : Byte := (a >>> 7) &&& 1#8

/-- Steps (3) and (4) of R150: Vx, then VF, so that with x = 15 the flag remains. -/
def State.setResultAndFlag (s : State) (x : Reg) (result flag : Byte) : State :=
  (s.setReg x result).setReg Reg.vf flag

end Sys2Proof.Machine
end

