-- ==== Sys2Proof/Machine/Control.lean ====
section
/-!
DEFINITION. Control transfer: SYS, RET, JP, CALL, SE, SNE, JP V0 (spec/40_control.md). None of them writes a V
register, a flag, RAM, a timer or a pixel (R120); `s.pc` is the address of the instruction itself (R23).
-/

namespace Sys2Proof.Machine

/-- What an instruction of this machine answers. -/
abbrev Result := Host.Outcome State Fault Refusal

/-- `0nnn` SYS (R121): a no-op, nnn is ignored (R98). -/
def execSys (_nnn : Addr12) (s : State) : Result := .next s.advance

/-- `00EE` RET (R122): StackUnderflow at SP = 0, else the popped address plus 2, past the CALL. -/
def execRet (s : State) : Result :=
  if s.sp = 0#8 then .next (s.raise .stackUnderflow)
  else
    match s.pop with
    | some (a, t) => .next (t.setPc (a.toNat + 2))
    | none => .fault .noSuchStackSlot

/-- `1nnn` JP (R123). -/
def execJp (nnn : Addr12) (s : State) : Result := .next (s.setPc nnn.toNat)

/-- `2nnn` CALL (R124): StackOverflow at SP = 16, else the address of this CALL is pushed. -/
def execCall (nnn : Addr12) (s : State) : Result :=
  if s.sp = 16#8 then .next (s.raise .stackOverflow)
  else
    match s.push s.pc with
    | some t => .next (t.setPc nnn.toNat)
    | none => .fault .noSuchStackSlot

/-- `3xkk` SE Vx, kk (R125). -/
def execSeImm (x : Reg) (kk : Byte) (s : State) : Result := .next (s.skipIf (s.reg x == kk))

/-- `4xkk` SNE Vx, kk (R126). -/
def execSneImm (x : Reg) (kk : Byte) (s : State) : Result := .next (s.skipIf (s.reg x != kk))

/-- `5xy0` SE Vx, Vy (R127). -/
def execSeReg (x y : Reg) (s : State) : Result := .next (s.skipIf (s.reg x == s.reg y))

/-- `9xy0` SNE Vx, Vy (R128). -/
def execSneReg (x y : Reg) (s : State) : Result := .next (s.skipIf (s.reg x != s.reg y))

/-- `Bnnn` JP V0, nnn (R129): the register is always V0, and the sum wraps at 12 bits. -/
def execJpV0 (nnn : Addr12) (s : State) : Result := .next (s.setPc (nnn.toNat + (s.reg 0).toNat))

end Sys2Proof.Machine
end

