-- ==== Sys2Proof/Machine/Alu.lean ====
section
/-!
DEFINITION. The alu_8bit block: 6xkk, 7xkk, the family 8xy*, and Cxkk (spec/41_alu.md). Operands are read first,
then Vx is written, then VF where the instruction has a flag (R150); everything wraps modulo 256 (R162).
-/

namespace Sys2Proof.Machine

/-- `6xkk` LD Vx, kk (R151). -/
def execLdImm (x : Reg) (kk : Byte) (s : State) : Result := .next (s.setReg x kk).advance

/-- `7xkk` ADD Vx, kk (R152): no flag. -/
def execAddImm (x : Reg) (kk : Byte) (s : State) : Result := .next (s.setReg x (s.reg x + kk)).advance

/-- `8xy0` LD Vx, Vy (R153). -/
def execLdReg (x y : Reg) (s : State) : Result := .next (s.setReg x (s.reg y)).advance

/-- `8xy1` OR Vx, Vy (R154): VF is left alone (decision D17). -/
def execOrReg (x y : Reg) (s : State) : Result := .next (s.setReg x (s.reg x ||| s.reg y)).advance

/-- `8xy2` AND Vx, Vy (R155). -/
def execAndReg (x y : Reg) (s : State) : Result := .next (s.setReg x (s.reg x &&& s.reg y)).advance

/-- `8xy3` XOR Vx, Vy (R156). -/
def execXorReg (x y : Reg) (s : State) : Result := .next (s.setReg x (s.reg x ^^^ s.reg y)).advance

/-- `8xy4` ADD Vx, Vy with carry out (R157). -/
def execAddReg (x y : Reg) (s : State) : Result :=
  let a := s.reg x
  let b := s.reg y
  .next (s.setResultAndFlag x (a + b) (carryFlag a b)).advance

/-- `8xy5` SUB Vx, Vy (R158). -/
def execSub (x y : Reg) (s : State) : Result :=
  let a := s.reg x
  let b := s.reg y
  .next (s.setResultAndFlag x (a - b) (noBorrowFlag a b)).advance

/-- `8xy6` SHR Vx (R159): Vy is never read. -/
def execShr (x _y : Reg) (s : State) : Result :=
  let a := s.reg x
  .next (s.setResultAndFlag x (a >>> 1) (lowBitFlag a)).advance

/-- `8xy7` SUBN Vx, Vy (R160). -/
def execSubn (x y : Reg) (s : State) : Result :=
  let a := s.reg x
  let b := s.reg y
  .next (s.setResultAndFlag x (b - a) (noBorrowFlag b a)).advance

/-- `8xyE` SHL Vx (R161): Vy is never read. -/
def execShl (x _y : Reg) (s : State) : Result :=
  let a := s.reg x
  .next (s.setResultAndFlag x (a <<< 1) (highBitFlag a)).advance

/-- `Cxkk` RND Vx, kk (R163): exactly one byte is drawn. -/
def execRnd (x : Reg) (kk : Byte) (s : State) : Result :=
  .next (s.drawn.setReg x (s.randomByte &&& kk)).advance

end Sys2Proof.Machine
end

