-- ==== Sys2Proof/Machine/Display.lean ====
section
/-!
DEFINITION. The framebuffer_64x32_sprite_blit block: CLS and DRW (spec/42_display.md). The blit is the two loops of
R182's pseudocode, over rows and within a row over columns, carrying the framebuffer and the collision flag.
-/

namespace Sys2Proof.Machine

/-- The framebuffer as drawn so far, and whether a pixel that was 1 has been flipped. -/
abbrev Blit := Framebuffer × Bool

/-- One turn of R182's inner loop: `FB[py][px] <- old ^ bit`, and the collision if both are 1. -/
def Blit.pixel (d : Blit) (py : Fin 32) (px : Fin 64) (bit : Bool) : Blit :=
  match d with
  | (fb, hit) =>
    let old := Framebuffer.pixel fb py px
    (Framebuffer.setPixel fb py px (old ^^ bit), hit || (old && bit))

/-- The first `n` columns of one sprite row, the leftmost at column `vx`; columns wrap modulo 64. -/
def Blit.columns (row : Byte) (vx : Byte) (py : Fin 32) : Nat → Blit → Blit
  | 0, d => d
  | c + 1, d =>
    Blit.pixel (Blit.columns row vx py c d) py (colAt (vx.toNat + c)) (spriteBit row c)

/-- The first `n` rows of the sprite at address I, the top one at row `vy`; rows wrap modulo 32. -/
def Blit.rows (s : State) (vx vy : Byte) : Nat → Blit → Blit
  | 0, d => d
  | r + 1, d =>
    Blit.columns (s.memRead (s.ea r)) vx (rowAt (vy.toNat + r)) 8 (Blit.rows s vx vy r d)

/-- `00E0` CLS (R180). -/
def execCls (s : State) : Result := .next { s with fb := Framebuffer.blank }.advance

/-- `Dxyn` DRW Vx, Vy, n (R182): the coordinates are read first; VF is written once, after all pixels. -/
def execDrw (x y : Reg) (n : Fin 16) (s : State) : Result :=
  let drawn := Blit.rows s (s.reg x) (s.reg y) n.val (s.fb, false)
  .next ({ s with fb := drawn.1 }.setReg Reg.vf (flagByte drawn.2)).advance

end Sys2Proof.Machine
end

