-- ==== Sys2Proof/Machine/Index.lean ====
section
/-!
DEFINITION. Timer, index and memory instructions (spec/44_timer_index_memory.md). None writes VF as a flag; loads
and stores go through `(I + k) & 0xFFF` and leave I unchanged (R200).
-/

namespace Sys2Proof.Machine

/-- `Annn` LD I, nnn (R201). -/
def execLdI (nnn : Addr12) (s : State) : Result := .next { s with i := nnn.setWidth 16 }.advance

/-- `Fx07` LD Vx, DT (R202). -/
def execLdVxDt (x : Reg) (s : State) : Result := .next (s.setReg x s.dt).advance

/-- `Fx15` LD DT, Vx (R203). -/
def execLdDtVx (x : Reg) (s : State) : Result := .next { s with dt := s.reg x }.advance

/-- `Fx18` LD ST, Vx (R204). -/
def execLdStVx (x : Reg) (s : State) : Result := .next { s with st := s.reg x }.advance

/-- `Fx1E` ADD I, Vx (R205): modulo 65536, no flag. -/
def execAddIVx (x : Reg) (s : State) : Result :=
  .next { s with i := s.i + (s.reg x).setWidth 16 }.advance

/-- `Fx29` LD F, Vx (R206). -/
def execLdFVx (x : Reg) (s : State) : Result := .next { s with i := glyphAddress (s.reg x) }.advance

/-- `Fx33` LD B, Vx (R207): hundreds at I, tens at I + 1, ones at I + 2. -/
def execLdBVx (x : Reg) (s : State) : Result :=
  let b := s.reg x
  .next (((s.memWrite (s.ea 0) (bcdDigit b 0)).memWrite (s.ea 1) (bcdDigit b 1)).memWrite (s.ea 2)
    (bcdDigit b 2)).advance

/-- V0 to V(n-1) stored from I upward, V0 first: the loop of R208. -/
def State.storeRegs (s : State) : Nat → State
  | 0 => s
  | k + 1 => (s.storeRegs k).memWrite (s.ea k) (s.reg (regAt k))

/-- V0 to V(n-1) loaded from I upward, V0 first: the loop of R209. -/
def State.loadRegs (s : State) : Nat → State
  | 0 => s
  | k + 1 => (s.loadRegs k).setReg (regAt k) (s.memRead (s.ea k))

/-- `Fx55` LD [I], Vx (R208): V0 to Vx, x included. -/
def execLdMemVx (x : Reg) (s : State) : Result := .next (s.storeRegs (x.val + 1)).advance

/-- `Fx65` LD Vx, [I] (R209): V0 to Vx, x included. -/
def execLdVxMem (x : Reg) (s : State) : Result := .next (s.loadRegs (x.val + 1)).advance

end Sys2Proof.Machine
end

