-- ==== Sys2Proof/Machine/Keypad.lean ====
section
/-!
DEFINITION. The keypad instructions: SKP, SKNP, LD Vx, K (spec/43_keypad.md). They read the state the KEY events
leave, and none of them writes HELD (R190, R193).
-/

namespace Sys2Proof.Machine

/-- `Ex9E` SKP Vx (R191). -/
def execSkp (x : Reg) (s : State) : Result := .next (s.skipIf (s.isHeld (s.keyOf x)))

/-- `ExA1` SKNP Vx (R192). -/
def execSknp (x : Reg) (s : State) : Result := .next (s.skipIf (!s.isHeld (s.keyOf x)))

/-- `Fx0A` LD Vx, K (R193): with no edge recorded nothing is written and the instruction repeats; else the edge is
consumed, however old (decision D13). -/
def execLdVxK (x : Reg) (s : State) : Result :=
  match s.edge with
  | none => .next s
  | some k => .next ({ s with edge := none }.setReg x (keyByte k)).advance

end Sys2Proof.Machine
end

