-- ==== Sys2Proof/WellFormed.lean ====
section
/-!
DEFINITION. Which instructions have a word. The types of the operands already fit their fields (spec/30_encoding.md
R93), so one check is left: the words 0x00E0 and 0x00EE are CLS and RET, never SYS (R94, R97).
-/

namespace Sys2Proof

/-- `sys nnn` stands for a word only if 0x0nnn is neither 00E0 nor 00EE; every other instruction does. -/
def Instr.wellFormed : Instr → Bool
  | .sys nnn => nnn != 0x0E0#12 && nnn != 0x0EE#12
  | _ => true

end Sys2Proof
end

