-- ==== Sys2Proof/Decode.lean ====
section
/-!
DEFINITION. The instruction_decoder block: the field split (spec/00_scope.md R9), the decode algorithm
(spec/30_encoding.md R94), the reserved words rejected by name (R96), and an encoder written from the opcode
map (R95). Decoding depends on the word alone (R99).
-/

namespace Sys2Proof

/-- Why no instruction is read: the row of R96's table that holds the word, or bytes too few to make a word. -/
inductive Reject where
  /-- `5xyn` with n other than 0 (R96; decision D7). -/
  | reserved5
  /-- `8xyn` with n in 8..D or F (R96). -/
  | reserved8
  /-- `9xyn` with n other than 0 (R96; decision D7). -/
  | reserved9
  /-- `Exkk` with kk other than 9E and A1 (R96). -/
  | reservedE
  /-- `Fxkk` with kk none of the nine values of R94 (R96). -/
  | reservedF
  /-- Fewer than two bytes were given: never met by the fetch, which always reads two (R64). -/
  | tooShort
  deriving DecidableEq, Repr

/-! ### Fields of a word (R9) -/

/-- `op = W[15:12]`. -/
def fieldOp (w : Word) : BitVec 4 := w.extractLsb' 12 4

/-- `x = W[11:8]`, as the register it names. -/
def fieldX (w : Word) : Reg := (w.extractLsb' 8 4).toFin

/-- `y = W[7:4]`, as the register it names. -/
def fieldY (w : Word) : Reg := (w.extractLsb' 4 4).toFin

/-- `n = W[3:0]`. -/
def fieldN (w : Word) : BitVec 4 := w.extractLsb' 0 4

/-- `kk = W[7:0]`. -/
def fieldKk (w : Word) : Byte := w.extractLsb' 0 8

/-- `nnn = W[11:0]`. -/
def fieldNnn (w : Word) : Addr12 := w.extractLsb' 0 12

/-! ### The decode algorithm (R94) -/

/-- The arm `op = 0x0`: 00E0 and 00EE take precedence over SYS (R94, R97). -/
def decode0 (w : Word) : Instr :=
  if w = 0x00E0#16 then .cls
  else if w = 0x00EE#16 then .ret
  else .sys (fieldNnn w)

/-- The arm `op = 0x8`: n is a sub-opcode (R94). -/
def decode8 (w : Word) : Except Reject Instr :=
  match fieldN w with
  | 0x0#4 => .ok (.ldReg (fieldX w) (fieldY w))
  | 0x1#4 => .ok (.orReg (fieldX w) (fieldY w))
  | 0x2#4 => .ok (.andReg (fieldX w) (fieldY w))
  | 0x3#4 => .ok (.xorReg (fieldX w) (fieldY w))
  | 0x4#4 => .ok (.addReg (fieldX w) (fieldY w))
  | 0x5#4 => .ok (.sub (fieldX w) (fieldY w))
  | 0x6#4 => .ok (.shr (fieldX w) (fieldY w))
  | 0x7#4 => .ok (.subn (fieldX w) (fieldY w))
  | 0xE#4 => .ok (.shl (fieldX w) (fieldY w))
  | _ => .error .reserved8

/-- The arm `op = 0xE`: kk is a sub-opcode (R94). -/
def decodeE (w : Word) : Except Reject Instr :=
  match fieldKk w with
  | 0x9E#8 => .ok (.skp (fieldX w))
  | 0xA1#8 => .ok (.sknp (fieldX w))
  | _ => .error .reservedE

/-- The arm `op = 0xF`: kk is a sub-opcode (R94). -/
def decodeF (w : Word) : Except Reject Instr :=
  match fieldKk w with
  | 0x07#8 => .ok (.ldVxDt (fieldX w))
  | 0x0A#8 => .ok (.ldVxK (fieldX w))
  | 0x15#8 => .ok (.ldDtVx (fieldX w))
  | 0x18#8 => .ok (.ldStVx (fieldX w))
  | 0x1E#8 => .ok (.addIVx (fieldX w))
  | 0x29#8 => .ok (.ldFVx (fieldX w))
  | 0x33#8 => .ok (.ldBVx (fieldX w))
  | 0x55#8 => .ok (.ldMemVx (fieldX w))
  | 0x65#8 => .ok (.ldVxMem (fieldX w))
  | _ => .error .reservedF

/-- Every word decodes to exactly one instruction or is reserved (R94, R96). -/
def decode (w : Word) : Except Reject Instr :=
  match fieldOp w with
  | 0x0#4 => .ok (decode0 w)
  | 0x1#4 => .ok (.jp (fieldNnn w))
  | 0x2#4 => .ok (.call (fieldNnn w))
  | 0x3#4 => .ok (.seImm (fieldX w) (fieldKk w))
  | 0x4#4 => .ok (.sneImm (fieldX w) (fieldKk w))
  | 0x5#4 => if fieldN w = 0x0#4 then .ok (.seReg (fieldX w) (fieldY w)) else .error .reserved5
  | 0x6#4 => .ok (.ldImm (fieldX w) (fieldKk w))
  | 0x7#4 => .ok (.addImm (fieldX w) (fieldKk w))
  | 0x8#4 => decode8 w
  | 0x9#4 => if fieldN w = 0x0#4 then .ok (.sneReg (fieldX w) (fieldY w)) else .error .reserved9
  | 0xA#4 => .ok (.ldI (fieldNnn w))
  | 0xB#4 => .ok (.jpV0 (fieldNnn w))
  | 0xC#4 => .ok (.rnd (fieldX w) (fieldKk w))
  | 0xD#4 => .ok (.drw (fieldX w) (fieldY w) (fieldN w).toFin)
  | 0xE#4 => decodeE w
  | _ => decodeF w

/-- The word of two bytes, the one at the lower address more significant: `W <- {hi, lo}` (spec/20_memory.md R64). -/
def wordOfBytes (hi lo : Byte) : Word := hi ++ lo

/-- Decoding a byte string: the first two bytes, and the rest of the string. Every instruction is two bytes (R90). -/
def decodeBytes : List Byte → Except Reject (Instr × List Byte)
  | hi :: lo :: rest =>
    match decode (wordOfBytes hi lo) with
    | .ok i => .ok (i, rest)
    | .error e => .error e
  | _ => .error .tooShort

/-! ### The encoder (R95) -/

/-- The four bits that name a register. -/
def regBits (r : Reg) : BitVec 4 := BitVec.ofFin r

/-- The layout NNN of R92. -/
def formNnn (op : BitVec 4) (nnn : Addr12) : Word := op ++ nnn

/-- The layout XKK of R92; with a fixed kk it is the layout X. -/
def formXkk (op : BitVec 4) (x : Reg) (kk : Byte) : Word := op ++ regBits x ++ kk

/-- The layout XYN of R92; with a fixed n it is the layout XY. -/
def formXyn (op : BitVec 4) (x y : Reg) (n : BitVec 4) : Word := op ++ regBits x ++ regBits y ++ n

/-- The word of an instruction, from the rows of the opcode map (R95). -/
def encode : Instr → Word
  | .sys nnn => formNnn 0x0#4 nnn
  | .cls => 0x00E0#16
  | .ret => 0x00EE#16
  | .jp nnn => formNnn 0x1#4 nnn
  | .call nnn => formNnn 0x2#4 nnn
  | .seImm x kk => formXkk 0x3#4 x kk
  | .sneImm x kk => formXkk 0x4#4 x kk
  | .seReg x y => formXyn 0x5#4 x y 0x0#4
  | .ldImm x kk => formXkk 0x6#4 x kk
  | .addImm x kk => formXkk 0x7#4 x kk
  | .ldReg x y => formXyn 0x8#4 x y 0x0#4
  | .orReg x y => formXyn 0x8#4 x y 0x1#4
  | .andReg x y => formXyn 0x8#4 x y 0x2#4
  | .xorReg x y => formXyn 0x8#4 x y 0x3#4
  | .addReg x y => formXyn 0x8#4 x y 0x4#4
  | .sub x y => formXyn 0x8#4 x y 0x5#4
  | .shr x y => formXyn 0x8#4 x y 0x6#4
  | .subn x y => formXyn 0x8#4 x y 0x7#4
  | .shl x y => formXyn 0x8#4 x y 0xE#4
  | .sneReg x y => formXyn 0x9#4 x y 0x0#4
  | .ldI nnn => formNnn 0xA#4 nnn
  | .jpV0 nnn => formNnn 0xB#4 nnn
  | .rnd x kk => formXkk 0xC#4 x kk
  | .drw x y n => formXyn 0xD#4 x y (BitVec.ofFin n)
  | .skp x => formXkk 0xE#4 x 0x9E#8
  | .sknp x => formXkk 0xE#4 x 0xA1#8
  | .ldVxDt x => formXkk 0xF#4 x 0x07#8
  | .ldVxK x => formXkk 0xF#4 x 0x0A#8
  | .ldDtVx x => formXkk 0xF#4 x 0x15#8
  | .ldStVx x => formXkk 0xF#4 x 0x18#8
  | .addIVx x => formXkk 0xF#4 x 0x1E#8
  | .ldFVx x => formXkk 0xF#4 x 0x29#8
  | .ldBVx x => formXkk 0xF#4 x 0x33#8
  | .ldMemVx x => formXkk 0xF#4 x 0x55#8
  | .ldVxMem x => formXkk 0xF#4 x 0x65#8

/-- The two bytes of an instruction as they lie in memory, most significant first (R91). -/
def encodeBytes (i : Instr) : List Byte :=
  [(encode i).extractLsb' 8 8, (encode i).extractLsb' 0 8]

/-! ### The opcode table's own numbering of the bits -/

/-- The bytes of an instruction whose low `nbits` bits are `w` and whose other bits are 0, in the order in which
they lie in memory: one 16-bit word, high byte first (R64, R91). -/
def tableBytes (nbits w : Nat) : Byte × Byte :=
  let word : Word := BitVec.ofNat 16 (w % 2 ^ nbits)
  (word.extractLsb' 8 8, word.extractLsb' 0 8)

/-- The instruction the decoder reads from a word numbered as spec/opcode_table.json numbers it. -/
def decodeTableWord (nbits w : Nat) : Option Instr :=
  match decodeBytes [(tableBytes nbits w).1, (tableBytes nbits w).2] with
  | .ok (i, _) => some i
  | .error _ => none

end Sys2Proof
end

