-- ==== Sys2Proof/Machine/Events.lean ====
section
/-!
DEFINITION. The host interface: the events other than STEP (spec/60_exceptions.md R234 to R237,
spec/70_reset_and_hazards.md R260 to R264) and the outputs (R239 to R241). An event leaves the model's own fields
`draws` and `schedule` alone.
-/

namespace Sys2Proof.Machine

/-- The next event, and the state with it taken off the schedule. With none scheduled the host sends STEP (log
entry 2). -/
def State.takeEvent (s : State) : Event × State :=
  match s.schedule with
  | [] => (.step, s)
  | e :: rest => (e, { s with schedule := rest })

/-- RESET (R260): every field of R20 at its reset value. The random bytes already drawn stay drawn, since the
generator is the host's (R36). -/
def State.doReset (s : State) : State := { State.reset with draws := s.draws, schedule := s.schedule }

/-- The bytes of an image stored from address `a` upward (R261, R262). -/
def State.storeImage (s : State) : Nat → List Byte → State
  | _, [] => s
  | a, b :: rest => (s.memWrite a b).storeImage (a + 1) rest

/-- What LOAD sets beside RAM (R261): V, STACK, PC, I, SP, DT, ST, FB and FAULT. HELD and EDGE stay (decision D12). -/
def State.clearForLoad (s : State) : State :=
  { s with
    v := State.reset.v, pc := State.reset.pc, i := State.reset.i, sp := State.reset.sp, stack := State.reset.stack
    dt := State.reset.dt, st := State.reset.st, fb := State.reset.fb, fault := none }

/-- What LOAD answers the host (R264). -/
inductive LoadAnswer where
  /-- The image was copied. -/
  | loaded
  /-- `LoadError: ROM too large`: more than 3584 bytes. Not stored in the core. -/
  | loadError
  deriving DecidableEq, Repr

/-- LOAD's answer depends on the length of the image alone (R261, R264). -/
def loadAnswer (rom : List Byte) : LoadAnswer := if rom.length ≤ Config.maxRom then .loaded else .loadError

/-- LOAD(rom): the image at 0x200 and the rest of R261, or, refused, no change at all (R264). -/
def State.doLoad (s : State) (rom : List Byte) : State :=
  match loadAnswer rom with
  | .loaded => (s.storeImage Config.programBase rom).clearForLoad
  | .loadError => s

/-- A timer after one tick: it stops at 0 and never wraps (R237). -/
def tickDown (t : Byte) : Byte := if t = 0#8 then 0#8 else t - 1#8

/-- TICK60 (R237). -/
def State.doTick (s : State) : State := { s with dt := tickDown s.dt, st := tickDown s.st }

/-- KEY_DOWN(h) (R235): the edge is recorded only if the key was up. -/
def State.doKeyDown (s : State) (h : Key) : State :=
  { s with
    edge := if s.isHeld h then s.edge else some h
    held := s.held ||| (1#16 <<< h.val) }

/-- KEY_UP(h) (R236): EDGE stays. -/
def State.doKeyUp (s : State) (h : Key) : State := { s with held := s.held &&& ~~~(1#16 <<< h.val) }

/-! ### Outputs -/

/-- FB as the host reads it: 2048 values, element py*64 + px (R239). -/
def State.framebuffer (s : State) : Vector Bool 2048 :=
  Vector.ofFn fun (k : Fin 2048) => Framebuffer.pixel s.fb (rowAt (k.val / 64)) (colAt k.val)

/-- AUDIO_ON: ST > 0 (R240). -/
def State.audioOn (s : State) : Bool := decide (0 < s.st.toNat)

/-- The FAULT output's code (R220, R241; the numbering is decision D9). -/
def State.faultCode (s : State) : Nat :=
  match s.fault with
  | none => 0
  | some .decodeFault => 1
  | some .stackUnderflow => 2
  | some .stackOverflow => 3

end Sys2Proof.Machine
end

