-- ==== Sys2Proof/Machine/Fetch.lean ====
section
/-!
DEFINITION. Instruction fetch (spec/20_memory.md R64) and storing an instruction where it is fetched.
-/

namespace Sys2Proof.Machine

/-- The word at PC: the byte at pc is the more significant, the other lies at `(pc + 1) & 0xFFF` (R64). -/
def State.fetchWord (s : State) : Word := wordOfBytes (s.memRead s.pc.toNat) (s.memRead (s.pc.toNat + 1))

/-- The core is halted: a fault is recorded (R228). -/
def State.halted (s : State) : Bool := s.fault.isSome

/-- The state with two bytes stored where the next fetch reads them, running, and with the host's next event a
STEP: all that a fetch needs (R64, R228, R234). -/
def State.placeAtPc (s : State) (hi lo : Byte) : State :=
  { (s.memWrite s.pc.toNat hi).memWrite (s.pc.toNat + 1) lo with fault := none, schedule := [] }

end Sys2Proof.Machine
end

