-- ==== Sys2Proof/Machine/EventStep.lean ====
section
/-!
DEFINITION. What each event of the host does to the core (spec/00_scope.md R10, spec/60_exceptions.md R234).
-/

namespace Sys2Proof.Machine

/-- The event STEP (R234): nothing in the halt (R228); else fetch, decode, and execute or raise DecodeFault. -/
def stepEvent (s : State) : Host.Outcome State Fault Refusal :=
  if s.halted then .next s
  else
    match decode s.fetchWord with
    | .ok i => exec i s
    | .error _ => .next (s.raise .decodeFault)

/-- What one event does to the core (R10, R234). -/
def applyEvent (e : Event) (s : State) : Host.Outcome State Fault Refusal :=
  match e with
  | .reset => .next s.doReset
  | .load rom => .next (s.doLoad rom)
  | .step => stepEvent s
  | .tick60 => .next s.doTick
  | .keyDown h => .next (s.doKeyDown h)
  | .keyUp h => .next (s.doKeyUp h)

end Sys2Proof.Machine
end

