-- ==== Sys2Proof/Machine/Step.lean ====
section
/-!
DEFINITION. One step of the machine: the host's next event (spec/60_exceptions.md R234).
-/

namespace Sys2Proof.Machine

/-- One step: exactly one event, the next one of the schedule, or STEP if none is listed (log entry 2). -/
def step (s : State) : Host.Outcome State Fault Refusal := applyEvent s.takeEvent.1 s.takeEvent.2

/-- `s` with the instruction of the word `w` (bits numbered as spec/opcode_table.json numbers them, the bits from
`nbits` up 0) stored at PC, the core running and the next event a STEP, so that the very next step runs it. -/
def State.withFetchWord (s : State) (nbits w : Nat) : State :=
  s.placeAtPc (tableBytes nbits w).1 (tableBytes nbits w).2

end Sys2Proof.Machine
end

