-- ==== Sys2Proof/Safety.lean ====
section
/-!
DEFINITION. The terms in which claims about the machine are stated: the state invariant (spec/10_state.md R37), a
running core (spec/60_exceptions.md R228), what a state keeps of another, and runs of the machine event by event.
-/

namespace Sys2Proof.Safety

open Sys2Proof.Machine

/-- What every event keeps (R37), beside what the types of the fields say already: PC and every STACK slot hold
12-bit values, SP is at most 16, and RAM is in its canonical form. -/
structure Inv (s : State) : Prop where
  pc : s.pc.toNat < 4096
  sp : s.sp.toNat ≤ 16
  stack : ∀ k : Fin 16, (s.stack[k.val]).toNat < 4096
  mem : Memory.wf s.mem = true

/-- The core runs: no fault is recorded. A claim that a program runs correctly takes this of every state of the
run (R228). -/
def Running (s : State) : Prop := s.fault = none

/-- The next event is a STEP that executes the instruction `i`. -/
def Executes (s : State) (i : Instr) : Prop :=
  s.takeEvent.1 = .step ∧ Running s ∧ decode s.fetchWord = .ok i

/-- The next event is RESET or a LOAD. -/
def Initialises (s : State) : Prop := s.takeEvent.1 = .reset ∨ ∃ rom, s.takeEvent.1 = .load rom

/-- The parts of a state other than the V registers and PC: those of R20, and the model's own two fields. -/
inductive Part where
  | i | sp | stack | dt | st | ram | fb | held | edge | fault | draws | schedule
  deriving DecidableEq, Repr

/-- `t` has the same value as `s` in one part: for RAM, every byte reads the same; for FB, every pixel. -/
def SamePart (p : Part) (s t : State) : Prop :=
  match p with
  | .i => t.i = s.i
  | .sp => t.sp = s.sp
  | .stack => ∀ k : Fin 16, t.stack[k.val] = s.stack[k.val]
  | .dt => t.dt = s.dt
  | .st => t.st = s.st
  | .ram => ∀ a : Nat, t.memRead a = s.memRead a
  | .fb => ∀ py px, Framebuffer.pixel t.fb py px = Framebuffer.pixel s.fb py px
  | .held => t.held = s.held
  | .edge => t.edge = s.edge
  | .fault => t.fault = s.fault
  | .draws => t.draws = s.draws
  | .schedule => t.schedule = s.schedule

/-- Everything but PC, the parts `parts` and the registers `regs` is in `t` as it was in `s`: the frame of an
instruction. What becomes of PC is said beside it. -/
structure Keeps (parts : List Part) (regs : List Reg) (s t : State) : Prop where
  part : ∀ p, p ∉ parts → SamePart p s t
  reg : ∀ r, r ∉ regs → t.reg r = s.reg r

/-- `pc <- pc + n` where the sum is an address. What becomes of a larger one is the spec's decision D2 (R24), which
`Obligations.EveryInstructionLeavesPcWhereTheTableSays` states for every instruction. -/
def PcMoved (n : Nat) (s t : State) : Prop := s.pc.toNat + n < 4096 → t.pc.toNat = s.pc.toNat + n

/-- The machine goes from a state to another event by event, taking the events listed, and `ok` holds of every
state it leaves. -/
inductive Run (ok : State → Prop) : State → List Event → State → Prop where
  | done (s : State) : Run ok s [] s
  | more {s u t : State} {es : List Event} (here : ok s) (now : step s = .next u) (later : Run ok u es t) :
      Run ok s (s.takeEvent.1 :: es) t

/-! ### The end of a program

The hardware has none, and a model must define it (R266). Both definitions are the model's choice, in the two forms that
R266 and decision D21 name (log entry 10). Neither stops the core: it fetches on, and the timers and keys go on. -/

/-- The program is done, first form: the core runs, and the word at PC is a 1nnn that jumps to itself. -/
def Finished (s : State) : Prop :=
  Running s ∧ ∃ nnn : Addr12, decode s.fetchWord = .ok (.jp nnn) ∧ nnn.toNat = s.pc.toNat

/-- The program is done, second form: `t` is reached from `s` by a run with exactly `k` STEPs, other events among them,
in which the core runs throughout, at the end too (R228). -/
def FinishedAfter (k : Nat) (s t : State) : Prop :=
  ∃ es : List Event, Run Running s es t ∧ Running t ∧ es.count .step = k

/-! ### Words and tables of the spec, read as arithmetic -/

/-- The reserved words, row by row of the table of spec/30_encoding.md R96, by their hexadecimal digits. -/
def ReservedWord (w : Word) : Prop :=
  let op := w.toNat / 4096
  let n := w.toNat % 16
  let kk := w.toNat % 256
  (op = 0x8 ∧ n ∈ [0x8, 0x9, 0xA, 0xB, 0xC, 0xD, 0xF]) ∨
  (op = 0xE ∧ kk ∉ [0x9E, 0xA1]) ∨
  (op = 0xF ∧ kk ∉ [0x07, 0x0A, 0x15, 0x18, 0x1E, 0x29, 0x33, 0x55, 0x65]) ∨
  (op = 0x5 ∧ n ≠ 0) ∨
  (op = 0x9 ∧ n ≠ 0)

/-- The parts an instruction may write (R39, column "written by"); `00EE` and `2nnn` write FAULT when they fault,
and Cxkk counts the byte it draws. -/
def writtenParts : Instr → List Part
  | .cls => [.fb]
  | .drw _ _ _ => [.fb]
  | .ret => [.sp, .fault]
  | .call _ => [.sp, .stack, .fault]
  | .ldI _ => [.i]
  | .addIVx _ => [.i]
  | .ldFVx _ => [.i]
  | .rnd _ _ => [.draws]
  | .ldVxK _ => [.edge]
  | .ldDtVx _ => [.dt]
  | .ldStVx _ => [.st]
  | .ldBVx _ => [.ram]
  | .ldMemVx _ => [.ram]
  | .sys _ | .jp _ | .seImm _ _ | .sneImm _ _ | .seReg _ _ | .ldImm _ _ | .addImm _ _ | .ldReg _ _ | .orReg _ _
  | .andReg _ _ | .xorReg _ _ | .addReg _ _ | .sub _ _ | .shr _ _ | .subn _ _ | .shl _ _ | .sneReg _ _ | .jpV0 _
  | .skp _ | .sknp _ | .ldVxDt _ | .ldVxMem _ => []

/-- The V registers an instruction may write (R39, rows V[x], V[0..x] and VF as flag). -/
def writtenRegs : Instr → List Reg
  | .ldImm x _ | .addImm x _ | .ldReg x _ | .orReg x _ | .andReg x _ | .xorReg x _ | .rnd x _ | .ldVxDt x
  | .ldVxK x => [x]
  | .addReg x _ | .sub x _ | .shr x _ | .subn x _ | .shl x _ => [x, Reg.vf]
  | .drw _ _ _ => [Reg.vf]
  | .ldVxMem x => (List.finRange 16).filter fun r => decide (r ≤ x)
  | .sys _ | .cls | .ret | .jp _ | .call _ | .seImm _ _ | .sneImm _ _ | .seReg _ _ | .sneReg _ _ | .ldI _ | .jpV0 _
  | .skp _ | .sknp _ | .ldDtVx _ | .ldStVx _ | .addIVx _ | .ldFVx _ | .ldBVx _ | .ldMemVx _ => []

/-- The instructions that write VF as a flag (R22). -/
def writesFlag : Instr → Bool
  | .addReg _ _ | .sub _ _ | .shr _ _ | .subn _ _ | .shl _ _ | .drw _ _ _ => true
  | .sys _ | .cls | .ret | .jp _ | .call _ | .seImm _ _ | .sneImm _ _ | .seReg _ _ | .ldImm _ _ | .addImm _ _
  | .ldReg _ _ | .orReg _ _ | .andReg _ _ | .xorReg _ _ | .sneReg _ _ | .ldI _ | .jpV0 _ | .rnd _ _ | .skp _ | .sknp _
  | .ldVxDt _ | .ldVxK _ | .ldDtVx _ | .ldStVx _ | .addIVx _ | .ldFVx _ | .ldBVx _ | .ldMemVx _ | .ldVxMem _ => false

/-- Where an instruction that does not fault goes, before the reduction to 12 bits: the table of R25. -/
def nextPc (i : Instr) (s : State) : Nat :=
  let skip (b : Prop) [Decidable b] : Nat := if b then s.pc.toNat + 4 else s.pc.toNat + 2
  match i with
  | .seImm x kk => skip (s.reg x = kk)
  | .sneImm x kk => skip (s.reg x ≠ kk)
  | .seReg x y => skip (s.reg x = s.reg y)
  | .sneReg x y => skip (s.reg x ≠ s.reg y)
  | .skp x => skip (s.held.getLsbD ((s.reg x).toNat % 16) = true)
  | .sknp x => skip (s.held.getLsbD ((s.reg x).toNat % 16) = false)
  | .jp nnn | .call nnn => nnn.toNat
  | .jpV0 nnn => nnn.toNat + (s.reg 0).toNat
  | .ret => (s.stack.toList.getD (s.sp.toNat - 1) 0#16).toNat + 2
  | .ldVxK _ => if s.edge = none then s.pc.toNat else s.pc.toNat + 2
  | .sys _ | .cls | .ldImm _ _ | .addImm _ _ | .ldReg _ _ | .orReg _ _ | .andReg _ _ | .xorReg _ _ | .addReg _ _
  | .sub _ _ | .shr _ _ | .subn _ _ | .shl _ _ | .ldI _ | .rnd _ _ | .drw _ _ _ | .ldVxDt _ | .ldDtVx _ | .ldStVx _
  | .addIVx _ | .ldFVx _ | .ldBVx _ | .ldMemVx _ | .ldVxMem _ => s.pc.toNat + 2

/-! ### What can be observed -/

/-- Two answers are alike up to `R`: next states that `R` relates, or the same stop. -/
inductive Alike (R : State → State → Prop) : Result → Result → Prop where
  | next {t t' : State} (h : R t t') : Alike R (.next t) (.next t')
  | fault (f : Fault) : Alike R (.fault f) (.fault f)
  | refused (r : Refusal) : Alike R (.refused r) (.refused r)

/-- Related states step alike, to related states. Where the relation lets one part of the state differ, nothing the
machine does depends on that part. -/
def Simulates (R : State → State → Prop) : Prop := ∀ s s', R s s' → Alike R (step s) (step s')

/-- The states differ in ST alone. -/
def SameButSt (s t : State) : Prop := t = { s with st := t.st }

/-- The states differ in the upper four bits of I alone. -/
def SameButHighI (s t : State) : Prop := t = { s with i := t.i } ∧ t.i.toNat % 4096 = s.i.toNat % 4096

/-- The states differ in STACK slots at or above SP alone. -/
def SameButDeadSlots (s t : State) : Prop :=
  t = { s with stack := t.stack } ∧ ∀ k : Fin 16, k.val < s.sp.toNat → t.stack[k.val] = s.stack[k.val]

end Sys2Proof.Safety
end

