-- ==== Sys2Proof/Certificates/Slice0/Obligations.lean ====
section
/-!
DEFINITION. The statements about the model, one for each claim of OBLIGATIONS.json, taken from the numbered rules of
spec/. `Keeps parts regs` is the frame: every part and every V register not named is as before, every byte of RAM and
every pixel included. `PcMoved n` is `pc <- pc + n` where the sum is an address. A decision D<n> named below is the
spec's own choice (spec/92_eei_decisions.md), for which the model has a log entry: D2 and D3 entry 7, D7 entry 5, D8
entry 6, D6, D10 to D13, D16, D17 and D18 entry 8, D14 entry 3, D21 entry 10.
-/

open Sys2Proof Sys2Proof.Machine Sys2Proof.Safety

/-! ### Encoding (spec/30_encoding.md) -/

/-- Every well-formed instruction's word decodes to it: no bit of an encoding is dropped (R94, R95). -/
def Obligations.DecodeOfEncodeIsTheInstruction : Prop :=
  ∀ i : Instr, i.wellFormed = true → decode (encode i) = .ok i

/-- Whatever a word decodes to has that word, and is well-formed: each word has one meaning (R94). -/
def Obligations.EncodeOfDecodeIsTheWord : Prop :=
  ∀ (w : Word) (i : Instr), decode w = .ok i → encode i = w ∧ i.wellFormed = true

/-- The words that decode to no instruction are the reserved words of R96's table (5xyn and 9xyn by decision D7),
and no other. -/
def Obligations.DecodingRejectsExactlyTheReservedWords : Prop :=
  ∀ w : Word, (∃ e, decode w = .error e) ↔ ReservedWord w

/-- Words of spec/95_test_vectors.md section 2.1, each decoded as the vector says (5121 by decision D7). -/
def Obligations.WordsOfTheVectorsDecode : Prop :=
  decode 0x00E0#16 = .ok .cls ∧ decode 0x00EE#16 = .ok .ret ∧ decode 0x00E1#16 = .ok (.sys 0x0E1#12) ∧
  decode 0x1ABC#16 = .ok (.jp 0xABC#12) ∧ decode 0x8AB4#16 = .ok (.addReg 0xA 0xB) ∧
  decode 0xD9A7#16 = .ok (.drw 0x9 0xA 0x7) ∧ decode 0xC37F#16 = .ok (.rnd 0x3 0x7F#8) ∧
  decode 0xEC9E#16 = .ok (.skp 0xC) ∧ decode 0xFE65#16 = .ok (.ldVxMem 0xE) ∧
  decode 0x8008#16 = .error .reserved8 ∧ decode 0x5121#16 = .error .reserved5 ∧
  decode 0xE19F#16 = .error .reservedE ∧ decode 0xF1FF#16 = .error .reservedF

/-! ### Fetch and STEP (spec/20_memory.md, spec/60_exceptions.md) -/

/-- R64: the byte at pc is the high half of the word, the byte at (pc + 1) & 0xFFF the low half. -/
def Obligations.FetchReadsTwoBytesBigEndian : Prop :=
  ∀ s : State, s.fetchWord.toNat =
    256 * (s.memRead s.pc.toNat).toNat + (s.memRead ((s.pc.toNat + 1) % 4096)).toNat

/-- A STEP of a running core executes the instruction at PC and nothing else (R234). The event STEP is either the
next one of the schedule or, with none scheduled, what the host sends (log entry 2). -/
def Obligations.StepRunsTheDecodedInstruction : Prop :=
  ∀ (s : State) (i : Instr) (rest : List Event), s.fault = none → decode s.fetchWord = .ok i →
    (s.schedule = [] → step s = exec i s) ∧
    (s.schedule = .step :: rest → step s = exec i { s with schedule := rest })

/-- An instruction stored at PC is what the very next STEP executes: the fetch sees the latest store (R73). -/
def Obligations.PlacedWordIsExecutedNext : Prop :=
  ∀ (s : State) (nbits w : Nat) (i : Instr), decodeTableWord nbits w = some i →
    step (s.withFetchWord nbits w) = exec i (s.withFetchWord nbits w)

/-- A STEP of a halted core changes nothing (R228, decision D8), the event itself apart. -/
def Obligations.HaltedCoreExecutesNothing : Prop :=
  ∀ (s : State) (k : FaultKind) (rest : List Event), s.fault = some k →
    (s.schedule = [] → step s = .next s) ∧
    (s.schedule = .step :: rest → step s = .next { s with schedule := rest })

/-- A reserved word fetched for execution sets FAULT to DecodeFault and nothing else; PC stays (R221, R224; decisions
D7 and D8). -/
def Obligations.ReservedWordRaisesDecodeFault : Prop :=
  ∀ s : State, Running s → s.takeEvent.1 = .step → ReservedWord s.fetchWord →
    ∃ t, step s = .next t ∧ t.fault = some .decodeFault ∧ t.pc = s.pc ∧ t.schedule = s.schedule.tail ∧
      Keeps [.fault, .schedule] [] s t

/-- Only three things raise a fault, each leaves everything but FAULT as it was, and PC on the faulting word
(R220 to R224; decision D8). -/
def Obligations.FaultsHaveThreeCausesAndArePrecise : Prop :=
  ∀ (s t : State) (k : FaultKind), Running s → step s = .next t → t.fault = some k →
    s.takeEvent.1 = .step ∧
    ((k = .decodeFault ∧ ReservedWord s.fetchWord) ∨ (k = .stackUnderflow ∧ Executes s .ret ∧ s.sp.toNat = 0) ∨
      (k = .stackOverflow ∧ s.sp.toNat = 16 ∧ ∃ nnn, Executes s (.call nnn))) ∧
    t.pc = s.pc ∧ Keeps [.fault, .schedule] [] s t

/-- The halt is left by RESET or LOAD only; until then the timers and the keypad are all that can change (R227, R228;
decisions D8 and D10). -/
def Obligations.HaltIsLeftOnlyByResetOrLoad : Prop :=
  ∀ (s t : State) (k : FaultKind), s.fault = some k → ¬ Initialises s → step s = .next t →
    t.fault = some k ∧ t.pc = s.pc ∧ Keeps [.dt, .st, .held, .edge, .schedule] [] s t

/-! ### Events and outputs (spec/60_exceptions.md, spec/70_reset_and_hazards.md) -/

/-- R237: each timer goes down by 1 unless it is 0; nothing else changes. That a halted core's timers go on too is
decision D8 (R228, log entry 6). -/
def Obligations.TickCountsBothTimersDown : Prop :=
  ∀ (s : State) (rest : List Event), s.schedule = .tick60 :: rest →
    ∃ t, step s = .next t ∧ t.dt.toNat = s.dt.toNat - 1 ∧ t.st.toNat = s.st.toNat - 1 ∧ t.pc = s.pc ∧
      t.schedule = rest ∧ Keeps [.dt, .st, .schedule] [] s t

/-- R235: the key is held afterwards, and it is the edge if it was up; a repeat changes nothing (decision D12). -/
def Obligations.KeyDownRecordsAnEdgeFromUpToDown : Prop :=
  ∀ (s : State) (h : Key) (rest : List Event), s.schedule = .keyDown h :: rest →
    ∃ t, step s = .next t ∧ (∀ k : Key, t.held.getLsbD k.val = (decide (k = h) || s.held.getLsbD k.val)) ∧
      (s.held.getLsbD h.val = false → t.edge = some h) ∧ (s.held.getLsbD h.val = true → t.edge = s.edge) ∧
      t.pc = s.pc ∧ t.schedule = rest ∧ Keeps [.held, .edge, .schedule] [] s t

/-- R236: the key is up afterwards, every other key and the edge are as before (decision D12). -/
def Obligations.KeyUpReleasesTheKeyAndKeepsTheEdge : Prop :=
  ∀ (s : State) (h : Key) (rest : List Event), s.schedule = .keyUp h :: rest →
    ∃ t, step s = .next t ∧ (∀ k : Key, t.held.getLsbD k.val = (!decide (k = h) && s.held.getLsbD k.val)) ∧
      t.pc = s.pc ∧ t.schedule = rest ∧ Keeps [.held, .schedule] [] s t

/-- R261: an image of at most 3584 bytes lies at 0x200 upward, the rest of RAM, HELD and EDGE are kept, and everything
else but the model's own fields is as after RESET (decisions D6, D10, D12). -/
def Obligations.LoadCopiesTheImageAndClearsTheRest : Prop :=
  ∀ (s : State) (rom : List Byte) (rest : List Event), s.schedule = .load rom :: rest → rom.length ≤ 3584 →
    loadAnswer rom = .loaded ∧
    ∃ t, step s = .next t ∧
      (∀ k, k < rom.length → t.memRead (0x200 + k) = rom.getD k 0#8) ∧
      (∀ a, a % 4096 < 0x200 ∨ 0x200 + rom.length ≤ a % 4096 → t.memRead a = s.memRead a) ∧
      t.pc = 0x200#16 ∧ (∀ r : Reg, t.reg r = 0#8) ∧ t.i = 0#16 ∧ t.sp = 0#8 ∧
      (∀ k : Fin 16, t.stack[k.val] = 0#16) ∧ t.dt = 0#8 ∧ t.st = 0#8 ∧
      (∀ py px, Framebuffer.pixel t.fb py px = false) ∧ t.fault = none ∧
      t.held = s.held ∧ t.edge = s.edge ∧ t.draws = s.draws ∧ t.schedule = rest

/-- R264: a larger image is refused, and nothing changes, FAULT included (decision D11). -/
def Obligations.OversizeLoadChangesNothing : Prop :=
  ∀ (s : State) (rom : List Byte) (rest : List Event), s.schedule = .load rom :: rest → 3584 < rom.length →
    loadAnswer rom = .loadError ∧
    ∃ t, step s = .next t ∧ t.pc = s.pc ∧ t.schedule = rest ∧ Keeps [.schedule] [] s t

/-- R260: whatever the state, RESET leaves RAM zero with FONT at 0x000, PC at 0x200 and everything else 0, none or
None (decisions D10, D12, D16; FONT is log entry 1); the model's own two fields are the host's. -/
def Obligations.ResetRestoresEveryPieceOfState : Prop :=
  ∀ (s : State) (rest : List Event), s.schedule = .reset :: rest →
    ∃ t, step s = .next t ∧ t = { State.reset with draws := s.draws, schedule := rest } ∧
      (∀ a, t.memRead a = if a % 4096 < 80 then font.getD (a % 4096) 0#8 else 0#8) ∧
      (∀ py px, Framebuffer.pixel t.fb py px = false) ∧ (∀ r : Reg, t.reg r = 0#8) ∧
      (∀ k : Fin 16, t.stack[k.val] = 0#16) ∧ t.pc = 0x200#16 ∧ t.i = 0#16 ∧ t.sp = 0#8 ∧ t.dt = 0#8 ∧ t.st = 0#8 ∧
      t.held = 0#16 ∧ t.edge = none ∧ t.fault = none

/-- R239: the FB output is the screen row by row, element py*64 + px. -/
def Obligations.FramebufferOutputIsRowMajor : Prop :=
  ∀ (s : State) (py : Fin 32) (px : Fin 64),
    s.framebuffer[py.val * 64 + px.val]'(by omega) = Framebuffer.pixel s.fb py px

/-- R240: AUDIO_ON is ST > 0. It comes on only by Fx18 writing a non-zero value, and goes off only by TICK60 taking ST
from 1 to 0 or by Fx18, RESET or LOAD writing 0. -/
def Obligations.AudioFollowsTheSoundTimer : Prop :=
  (∀ s : State, s.audioOn = true ↔ 0 < s.st.toNat) ∧
  ∀ s t : State, step s = .next t →
    (s.audioOn = false → t.audioOn = true →
      ∃ x, Executes s (.ldStVx x) ∧ s.reg x ≠ 0#8 ∧ t.st = s.reg x) ∧
    (s.audioOn = true → t.audioOn = false →
      (s.takeEvent.1 = .tick60 ∧ s.st.toNat = 1) ∨ (∃ x, Executes s (.ldStVx x) ∧ s.reg x = 0#8) ∨ Initialises s)

/-- R243: if N TICK60 events and no Fx15, RESET or LOAD follow, DT is max(0, DT - N); likewise ST with Fx18. -/
def Obligations.TimersCountTheTicksOfARun : Prop :=
  (∀ (s t : State) (es : List Event),
    Run (fun u => ¬ Initialises u ∧ ∀ x, ¬ Executes u (.ldDtVx x)) s es t →
      t.dt.toNat = s.dt.toNat - es.count .tick60) ∧
  (∀ (s t : State) (es : List Event),
    Run (fun u => ¬ Initialises u ∧ ∀ x, ¬ Executes u (.ldStVx x)) s es t →
      t.st.toNat = s.st.toNat - es.count .tick60)

/-! ### Control transfer (spec/40_control.md) -/

/-- R121: SYS only advances PC, whatever nnn. -/
def Obligations.SysOnlyAdvances : Prop :=
  ∀ (nnn : Addr12) (s : State), ∃ t, exec (.sys nnn) s = .next t ∧ PcMoved 2 s t ∧ Keeps [] [] s t

/-- R122: RET goes past the CALL whose address it pops, modulo 4096 (decision D2); with SP = 0 only FAULT changes
(decision D8). -/
def Obligations.ReturnPopsTheCallAddressOrUnderflows : Prop :=
  ∀ s : State,
    (∀ h : 0 < s.sp.toNat ∧ s.sp.toNat ≤ 16,
      ∃ t, exec .ret s = .next t ∧ t.sp.toNat = s.sp.toNat - 1 ∧
        t.pc.toNat = ((s.stack[s.sp.toNat - 1]'(by omega)).toNat + 2) % 4096 ∧ Keeps [.sp] [] s t) ∧
    (s.sp.toNat = 0 →
      ∃ t, exec .ret s = .next t ∧ t.fault = some .stackUnderflow ∧ t.pc = s.pc ∧ Keeps [.fault] [] s t)

/-- R123: JP goes to nnn; jumping to itself it changes nothing at all. -/
def Obligations.JumpGoesToTheAddress : Prop :=
  ∀ (nnn : Addr12) (s : State),
    (∃ t, exec (.jp nnn) s = .next t ∧ t.pc.toNat = nnn.toNat ∧ Keeps [] [] s t) ∧
    (nnn.toNat = s.pc.toNat → exec (.jp nnn) s = .next s)

/-- R124: CALL pushes its own address and goes to nnn; with SP = 16 only FAULT changes (decision D8). -/
def Obligations.CallPushesItsAddressOrOverflows : Prop :=
  ∀ (nnn : Addr12) (s : State),
    (s.sp.toNat < 16 →
      ∃ t, exec (.call nnn) s = .next t ∧ t.sp.toNat = s.sp.toNat + 1 ∧ t.pc.toNat = nnn.toNat ∧
        (∀ k : Fin 16, t.stack[k.val] = if k.val = s.sp.toNat then s.pc else s.stack[k.val]) ∧
        Keeps [.sp, .stack] [] s t) ∧
    (s.sp.toNat = 16 →
      ∃ t, exec (.call nnn) s = .next t ∧ t.fault = some .stackOverflow ∧ t.pc = s.pc ∧ Keeps [.fault] [] s t)

/-- CALL, then RET, continues after the CALL with the stack as it was (R130); only the dead slot differs. -/
def Obligations.CallThenReturnContinuesAfterTheCall : Prop :=
  ∀ (nnn : Addr12) (s : State), s.sp.toNat < 16 →
    ∃ t u, exec (.call nnn) s = .next t ∧ exec .ret t = .next u ∧ PcMoved 2 s u ∧
      (∀ k : Fin 16, k.val ≠ s.sp.toNat → u.stack[k.val] = s.stack[k.val]) ∧ Keeps [.stack] [] s u

/-- With SP above 16 there is no STACK slot to use, and 00EE and 2nnn stop by name: the model's choice for states that
R27 and R37 exclude (log entry 4). -/
def Obligations.CallAndReturnStopWithoutAStackSlot : Prop :=
  ∀ (nnn : Addr12) (s : State), 16 < s.sp.toNat →
    exec .ret s = .fault .noSuchStackSlot ∧ exec (.call nnn) s = .fault .noSuchStackSlot

/-- R125, R126: SE skips one instruction when Vx = kk, SNE when it differs; nothing but PC changes. -/
def Obligations.SkipsCompareWithTheImmediate : Prop :=
  ∀ (x : Reg) (kk : Byte) (s : State),
    (∃ t, exec (.seImm x kk) s = .next t ∧ PcMoved (if s.reg x = kk then 4 else 2) s t ∧ Keeps [] [] s t) ∧
    (∃ t, exec (.sneImm x kk) s = .next t ∧ PcMoved (if s.reg x = kk then 2 else 4) s t ∧ Keeps [] [] s t)

/-- R127, R128, whose predicates the spec derives from R125 and R126: the same with Vy in place of kk; with x = y SE
always skips and SNE never. -/
def Obligations.SkipsCompareTwoRegisters : Prop :=
  ∀ (x y : Reg) (s : State),
    (∃ t, exec (.seReg x y) s = .next t ∧ PcMoved (if s.reg x = s.reg y then 4 else 2) s t ∧ Keeps [] [] s t) ∧
    (∃ t, exec (.sneReg x y) s = .next t ∧ PcMoved (if s.reg x = s.reg y then 2 else 4) s t ∧ Keeps [] [] s t) ∧
    (x = y → (∀ t, exec (.seReg x y) s = .next t → PcMoved 4 s t) ∧ ∀ t, exec (.sneReg x y) s = .next t → PcMoved 2 s t)

/-- R129: Bnnn goes to nnn + V0, wrapping at 12 bits (decision D2). -/
def Obligations.JumpWithOffsetAddsV0 : Prop :=
  ∀ (nnn : Addr12) (s : State),
    ∃ t, exec (.jpV0 nnn) s = .next t ∧ t.pc.toNat = (nnn.toNat + (s.reg 0).toNat) % 4096 ∧ Keeps [] [] s t

/-! ### ALU (spec/41_alu.md) -/

/-- R151: Vx becomes kk. -/
def Obligations.LoadImmediateWritesTheByte : Prop :=
  ∀ (x : Reg) (kk : Byte) (s : State),
    ∃ t, exec (.ldImm x kk) s = .next t ∧ t.reg x = kk ∧ PcMoved 2 s t ∧ Keeps [] [x] s t

/-- R152: Vx + kk modulo 256, and no flag: with x other than 15, VF is kept. -/
def Obligations.AddImmediateWrapsWithoutFlag : Prop :=
  ∀ (x : Reg) (kk : Byte) (s : State),
    ∃ t, exec (.addImm x kk) s = .next t ∧ (t.reg x).toNat = ((s.reg x).toNat + kk.toNat) % 256 ∧ PcMoved 2 s t ∧
      Keeps [] [x] s t

/-- R153: Vx becomes Vy. -/
def Obligations.LoadRegisterCopies : Prop :=
  ∀ (x y : Reg) (s : State),
    ∃ t, exec (.ldReg x y) s = .next t ∧ t.reg x = s.reg y ∧ PcMoved 2 s t ∧ Keeps [] [x] s t

/-- R154, R155, R156: bit by bit or, and, exclusive or of Vx and Vy; VF is written only as destination (decision
D17). -/
def Obligations.LogicActsBitwiseWithoutFlag : Prop :=
  ∀ (x y : Reg) (s : State),
    (∃ t, exec (.orReg x y) s = .next t ∧ PcMoved 2 s t ∧ Keeps [] [x] s t ∧
      ∀ k, (t.reg x).getLsbD k = ((s.reg x).getLsbD k || (s.reg y).getLsbD k)) ∧
    (∃ t, exec (.andReg x y) s = .next t ∧ PcMoved 2 s t ∧ Keeps [] [x] s t ∧
      ∀ k, (t.reg x).getLsbD k = ((s.reg x).getLsbD k && (s.reg y).getLsbD k)) ∧
    (∃ t, exec (.xorReg x y) s = .next t ∧ PcMoved 2 s t ∧ Keeps [] [x] s t ∧
      ∀ k, (t.reg x).getLsbD k = ((s.reg x).getLsbD k ^^ (s.reg y).getLsbD k))

/-- R157: VF is 1 exactly when the sum is over 255, 0 otherwise; Vx holds the sum modulo 256 unless x = 15, when the
flag is what remains. -/
def Obligations.AddSetsCarry : Prop :=
  ∀ (x y : Reg) (s : State),
    ∃ t, exec (.addReg x y) s = .next t ∧
      t.reg Reg.vf = (if 255 < (s.reg x).toNat + (s.reg y).toNat then 1#8 else 0#8) ∧
      (x ≠ Reg.vf → (t.reg x).toNat = ((s.reg x).toNat + (s.reg y).toNat) % 256) ∧ PcMoved 2 s t ∧
      Keeps [] [x, Reg.vf] s t

/-- R158, R160: SUB takes Vy from Vx, SUBN Vx from Vy, modulo 256; VF is 1 exactly when nothing is borrowed, on the
values before the subtraction, and is what remains when x = 15. -/
def Obligations.SubtractionsSetNoBorrow : Prop :=
  ∀ (x y : Reg) (s : State),
    (∃ t, exec (.sub x y) s = .next t ∧
      t.reg Reg.vf = (if (s.reg y).toNat ≤ (s.reg x).toNat then 1#8 else 0#8) ∧
      (x ≠ Reg.vf → (t.reg x).toNat = ((s.reg x).toNat + 256 - (s.reg y).toNat) % 256) ∧ PcMoved 2 s t ∧
      Keeps [] [x, Reg.vf] s t) ∧
    (∃ t, exec (.subn x y) s = .next t ∧
      t.reg Reg.vf = (if (s.reg x).toNat ≤ (s.reg y).toNat then 1#8 else 0#8) ∧
      (x ≠ Reg.vf → (t.reg x).toNat = ((s.reg y).toNat + 256 - (s.reg x).toNat) % 256) ∧ PcMoved 2 s t ∧
      Keeps [] [x, Reg.vf] s t)

/-- R159, R161: a shift by one; VF is the bit shifted out, and what remains when x = 15; the field y makes no
difference. -/
def Obligations.ShiftsMoveOneBitIntoVF : Prop :=
  ∀ (x y : Reg) (s : State),
    (∃ t, exec (.shr x y) s = .next t ∧ (t.reg Reg.vf).toNat = (s.reg x).toNat % 2 ∧
      (x ≠ Reg.vf → (t.reg x).toNat = (s.reg x).toNat / 2) ∧ PcMoved 2 s t ∧ Keeps [] [x, Reg.vf] s t) ∧
    (∃ t, exec (.shl x y) s = .next t ∧ (t.reg Reg.vf).toNat = (s.reg x).toNat / 128 ∧
      (x ≠ Reg.vf → (t.reg x).toNat = 2 * (s.reg x).toNat % 256) ∧ PcMoved 2 s t ∧ Keeps [] [x, Reg.vf] s t) ∧
    ∀ y', exec (.shr x y) s = exec (.shr x y') s ∧ exec (.shl x y) s = exec (.shl x y') s

/-- R163: Vx is the random byte masked by kk, one byte is drawn, and no flag is written. The byte is a free value (log
entry 3): the statement holds whatever it is. -/
def Obligations.RandomIsMaskedByTheImmediate : Prop :=
  ∀ (x : Reg) (kk : Byte) (s : State),
    ∃ t, exec (.rnd x kk) s = .next t ∧ (∀ k, (t.reg x).getLsbD k = (s.randomByte.getLsbD k && kk.getLsbD k)) ∧
      (kk = 0x00#8 → t.reg x = 0#8) ∧ (kk = 0xFF#8 → t.reg x = s.randomByte) ∧ t.draws = s.draws + 1 ∧
      PcMoved 2 s t ∧ Keeps [.draws] [x] s t

/-- R22: an instruction that changes VF either has a flag, and leaves 0 or 1 in it, or names VF as its destination
(decision D17 for the rest). -/
def Obligations.FlagIsWrittenOnlyByFlagInstructions : Prop :=
  ∀ (i : Instr) (s t : State), exec i s = .next t →
    (writesFlag i = true → t.reg Reg.vf = 0#8 ∨ t.reg Reg.vf = 1#8) ∧
    (writesFlag i = false → t.reg Reg.vf ≠ s.reg Reg.vf → Reg.vf ∈ writtenRegs i)

/-! ### Display (spec/42_display.md) -/

/-- R180: every pixel is 0 afterwards, and nothing but FB and PC changes. -/
def Obligations.ClearBlanksEveryPixel : Prop :=
  ∀ s : State, ∃ t, exec .cls s = .next t ∧ (∀ py px, Framebuffer.pixel t.fb py px = false) ∧ PcMoved 2 s t ∧
    Keeps [.fb] [] s t

/-- R182: the pixel under each bit of the sprite is flipped by that bit, once; the coordinates wrap; every other pixel
is kept; VF is 1 exactly when a 1 bit lies on a pixel that was 1, else 0; I and RAM are kept. Vx and Vy are the
values before the instruction, VF among them. -/
def Obligations.DrawFlipsThePixelsUnderTheSprite : Prop :=
  ∀ (x y : Reg) (n : Fin 16) (s : State),
    ∃ t, exec (.drw x y n) s = .next t ∧
      (∀ r c, r < n.val → c < 8 →
        Framebuffer.pixel t.fb (rowAt ((s.reg y).toNat + r)) (colAt ((s.reg x).toNat + c)) =
          (Framebuffer.pixel s.fb (rowAt ((s.reg y).toNat + r)) (colAt ((s.reg x).toNat + c)) ^^
            (s.memRead (s.i.toNat + r)).getLsbD (7 - c))) ∧
      (∀ py px, (∀ r c, r < n.val → c < 8 →
          ¬ (py = rowAt ((s.reg y).toNat + r) ∧ px = colAt ((s.reg x).toNat + c))) →
        Framebuffer.pixel t.fb py px = Framebuffer.pixel s.fb py px) ∧
      (t.reg Reg.vf = 1#8 ↔ ∃ r c, r < n.val ∧ c < 8 ∧ (s.memRead (s.i.toNat + r)).getLsbD (7 - c) = true ∧
        Framebuffer.pixel s.fb (rowAt ((s.reg y).toNat + r)) (colAt ((s.reg x).toNat + c)) = true) ∧
      (t.reg Reg.vf = 0#8 ∨ t.reg Reg.vf = 1#8) ∧ PcMoved 2 s t ∧ Keeps [.fb] [Reg.vf] s t

/-- R183, second property, with 90_conflicts.md C7: drawn twice at the same place a sprite leaves the framebuffer as it
was, and the second draw sets VF exactly when some 1 bit lies on a pixel that was 0 before the first. -/
def Obligations.DrawingTwiceRestoresTheFramebuffer : Prop :=
  ∀ (x y : Reg) (n : Fin 16) (s : State), x ≠ Reg.vf → y ≠ Reg.vf →
    ∃ t u, exec (.drw x y n) s = .next t ∧ exec (.drw x y n) t = .next u ∧
      (∀ py px, Framebuffer.pixel u.fb py px = Framebuffer.pixel s.fb py px) ∧
      (u.reg Reg.vf = 1#8 ↔ ∃ r c, r < n.val ∧ c < 8 ∧ (s.memRead (s.i.toNat + r)).getLsbD (7 - c) = true ∧
        Framebuffer.pixel s.fb (rowAt ((s.reg y).toNat + r)) (colAt ((s.reg x).toNat + c)) = false)

/-! ### Keypad (spec/43_keypad.md) -/

/-- R190, R191, R192: the key is the low four bits of Vx; SKP skips when it is held, SKNP when it is not; nothing but PC
changes, HELD and EDGE included. -/
def Obligations.SkipsTestTheHeldKey : Prop :=
  ∀ (x : Reg) (s : State),
    (∃ t, exec (.skp x) s = .next t ∧
      PcMoved (if s.held.getLsbD ((s.reg x).toNat % 16) = true then 4 else 2) s t ∧ Keeps [] [] s t) ∧
    (∃ t, exec (.sknp x) s = .next t ∧
      PcMoved (if s.held.getLsbD ((s.reg x).toNat % 16) = true then 2 else 4) s t ∧ Keeps [] [] s t)

/-- R193: with no edge recorded Fx0A changes nothing at all and so repeats; with one, Vx is the key, the edge is
consumed, HELD is kept. That any unconsumed edge serves, however old, is decision D13. -/
def Obligations.WaitForKeyRepeatsOrTakesTheEdge : Prop :=
  ∀ (x : Reg) (s : State),
    (s.edge = none → exec (.ldVxK x) s = .next s) ∧
    ∀ k : Key, s.edge = some k →
      ∃ t, exec (.ldVxK x) s = .next t ∧ (t.reg x).toNat = k.val ∧ t.edge = none ∧ PcMoved 2 s t ∧
        Keeps [.edge] [x] s t

/-! ### Timer, index and memory instructions (spec/44_timer_index_memory.md) -/

/-- R201: I becomes nnn, its upper four bits 0. -/
def Obligations.LoadIndexWritesTheAddress : Prop :=
  ∀ (nnn : Addr12) (s : State),
    ∃ t, exec (.ldI nnn) s = .next t ∧ t.i.toNat = nnn.toNat ∧ PcMoved 2 s t ∧ Keeps [.i] [] s t

/-- R202, R203, R204: Fx07 reads DT, Fx15 writes DT, Fx18 writes ST. -/
def Obligations.TimerMovesCopyTheByte : Prop :=
  ∀ (x : Reg) (s : State),
    (∃ t, exec (.ldVxDt x) s = .next t ∧ t.reg x = s.dt ∧ PcMoved 2 s t ∧ Keeps [] [x] s t) ∧
    (∃ t, exec (.ldDtVx x) s = .next t ∧ t.dt = s.reg x ∧ PcMoved 2 s t ∧ Keeps [.dt] [] s t) ∧
    (∃ t, exec (.ldStVx x) s = .next t ∧ t.st = s.reg x ∧ t.audioOn = decide (s.reg x ≠ 0#8) ∧ PcMoved 2 s t ∧
      Keeps [.st] [] s t)

/-- R205: I + Vx modulo 65536; no flag, VF is kept. -/
def Obligations.AddToIndexWrapsAt16Bits : Prop :=
  ∀ (x : Reg) (s : State),
    ∃ t, exec (.addIVx x) s = .next t ∧ t.i.toNat = (s.i.toNat + (s.reg x).toNat) % 65536 ∧ PcMoved 2 s t ∧
      Keeps [.i] [] s t

/-- R206: I becomes 5 times the low four bits of Vx, at most 75. -/
def Obligations.FontAddressIsFiveTimesTheDigit : Prop :=
  ∀ (x : Reg) (s : State),
    ∃ t, exec (.ldFVx x) s = .next t ∧ t.i.toNat = 5 * ((s.reg x).toNat % 16) ∧ t.i.toNat ≤ 75 ∧ PcMoved 2 s t ∧
      Keeps [.i] [] s t

/-- R207: hundreds, tens and ones of Vx at I, I + 1 and I + 2, each address masked; every other byte, I and the
registers are kept. -/
def Obligations.BcdStoresThreeDigits : Prop :=
  ∀ (x : Reg) (s : State),
    ∃ t, exec (.ldBVx x) s = .next t ∧ (t.memRead (s.i.toNat)).toNat = (s.reg x).toNat / 100 ∧
      (t.memRead (s.i.toNat + 1)).toNat = (s.reg x).toNat / 10 % 10 ∧
      (t.memRead (s.i.toNat + 2)).toNat = (s.reg x).toNat % 10 ∧
      (∀ a : Nat, a % 4096 ≠ s.ea 0 → a % 4096 ≠ s.ea 1 → a % 4096 ≠ s.ea 2 → t.memRead a = s.memRead a) ∧
      PcMoved 2 s t ∧ Keeps [.ram] [] s t

/-- R208: V0 to Vx, x included, at I upward, each address masked; every other byte, I and the registers are kept. -/
def Obligations.StoreRegistersWritesV0ToVx : Prop :=
  ∀ (x : Reg) (s : State),
    ∃ t, exec (.ldMemVx x) s = .next t ∧
      (∀ r : Reg, r ≤ x → t.memRead (s.i.toNat + r.val) = s.reg r) ∧
      (∀ a : Nat, (∀ r : Reg, r ≤ x → a % 4096 ≠ s.ea r.val) → t.memRead a = s.memRead a) ∧
      PcMoved 2 s t ∧ Keeps [.ram] [] s t

/-- R209: V0 to Vx, x included, from I upward, each address masked; the registers above Vx, I and RAM are kept. -/
def Obligations.LoadRegistersReadsV0ToVx : Prop :=
  ∀ (x : Reg) (s : State),
    ∃ t, exec (.ldVxMem x) s = .next t ∧
      (∀ r : Reg, r ≤ x → t.reg r = s.memRead (s.i.toNat + r.val)) ∧
      (∀ r : Reg, x < r → t.reg r = s.reg r) ∧
      PcMoved 2 s t ∧ Keeps [] (writtenRegs (.ldVxMem x)) s t

/-- R210: whatever happens to the registers in between, Fx65 gives back what Fx55 with the same x and I stored, as long
as those bytes are not written. -/
def Obligations.StoreThenLoadRestoresTheRegisters : Prop :=
  ∀ (x : Reg) (s t u v : State), exec (.ldMemVx x) s = .next t → u.i = s.i →
    (∀ r : Reg, r ≤ x → u.memRead (s.i.toNat + r.val) = t.memRead (s.i.toNat + r.val)) →
    exec (.ldVxMem x) u = .next v →
    (∀ r : Reg, r ≤ x → v.reg r = s.reg r ∧ v.memRead (s.i.toNat + r.val) = s.reg r)

/-! ### Whole-machine rules -/

/-- The reset state meets the invariant (R37). It runs: FAULT is None after RESET by decision D10. It lists no RAM: what
an unlisted address reads as is the model's choice, the reset contents. Both stand in log entry 8. -/
def Obligations.ResetStateMeetsTheInvariant : Prop :=
  Inv State.reset ∧ Running State.reset ∧ State.reset.mem = []

/-- From every state that meets the invariant every event answers a next state that meets it: PC and the STACK slots
stay 12-bit values, SP stays at most 16, RAM stays in canonical form, and nothing stops the machine (R37). -/
def Obligations.EveryEventKeepsTheInvariant : Prop :=
  ∀ s : State, Inv s → ∃ t, step s = .next t ∧ Inv t

/-- R39: an instruction writes only the state in whose row it stands in the column "written by". -/
def Obligations.InstructionsWriteOnlyTheirState : Prop :=
  ∀ (i : Instr) (s t : State), exec i s = .next t → Keeps (writtenParts i) (writtenRegs i) s t

/-- R25: where each instruction leaves PC, unless it faults (then PC stays), reduced to 12 bits (R24, decision D2). A
state whose PC is no 12-bit value, which R37 excludes, is left out. -/
def Obligations.EveryInstructionLeavesPcWhereTheTableSays : Prop :=
  ∀ (i : Instr) (s t : State), s.pc.toNat < 4096 → Running s → exec i s = .next t →
    (Running t → t.pc.toNat = nextPc i s % 4096) ∧ (¬ Running t → t.pc = s.pc)

/-- R66: a program that only ever jumps to even addresses keeps PC even, and the return addresses on the stack. -/
def Obligations.EvenTargetsKeepPcEven : Prop :=
  ∀ (i : Instr) (s t : State), exec i s = .next t → s.pc.toNat % 2 = 0 →
    (∀ k : Fin 16, k.val < s.sp.toNat → (s.stack[k.val]).toNat % 2 = 0) →
    (∀ nnn, i = .jp nnn ∨ i = .call nnn → nnn.toNat % 2 = 0) →
    (∀ nnn, i = .jpV0 nnn → (nnn.toNat + (s.reg 0).toNat) % 2 = 0) →
    t.pc.toNat % 2 = 0 ∧ ∀ k : Fin 16, k.val < t.sp.toNat → (t.stack[k.val]).toNat % 2 = 0

/-- R29: no instruction reads ST, so nothing the machine does, ST itself apart, depends on it. -/
def Obligations.SoundTimerIsNeverRead : Prop := Simulates SameButSt

/-- R26: a program can never observe the upper four bits of I: two states that differ there alone stay so. -/
def Obligations.UpperBitsOfIndexAreUnobservable : Prop := Simulates SameButHighI

/-- R28: a STACK slot at or above SP cannot be observed by any instruction (decision D18). -/
def Obligations.DeadStackSlotsAreUnobservable : Prop := Simulates SameButDeadSlots

/-- R266: after the end of a program, in the first form the model defines it (decision D21, log entry 10), every STEP
leaves the state unchanged, the event itself apart; TICK60 and the KEY events still act (they change the timers, HELD and
EDGE alone), and until a RESET or a LOAD the program stays finished. -/
def Obligations.FinishedProgramStaysFinished : Prop :=
  ∀ s : State, Finished s → ¬ Initialises s →
    ∃ t, step s = .next t ∧ Finished t ∧ t.pc = s.pc ∧
      (s.takeEvent.1 = .step → t = { s with schedule := s.schedule.tail }) ∧
      Keeps [.dt, .st, .held, .edge, .schedule] [] s t
end

