-- ==== Sys2Proof/Laws/State.lean ====
section
/-!
SUPPORT. One lemma per field per update of the state, all true by rfl, so that no proof unfolds a record update.
-/

namespace Sys2Proof.Machine

/-! ### `State.setReg` -/

@[simp] theorem State.setReg_pc (s : State) (r : Reg) (b : Byte) : (s.setReg r b).pc = s.pc := rfl
@[simp] theorem State.setReg_i (s : State) (r : Reg) (b : Byte) : (s.setReg r b).i = s.i := rfl
@[simp] theorem State.setReg_sp (s : State) (r : Reg) (b : Byte) : (s.setReg r b).sp = s.sp := rfl
@[simp] theorem State.setReg_stack (s : State) (r : Reg) (b : Byte) : (s.setReg r b).stack = s.stack := rfl
@[simp] theorem State.setReg_dt (s : State) (r : Reg) (b : Byte) : (s.setReg r b).dt = s.dt := rfl
@[simp] theorem State.setReg_st (s : State) (r : Reg) (b : Byte) : (s.setReg r b).st = s.st := rfl
@[simp] theorem State.setReg_mem (s : State) (r : Reg) (b : Byte) : (s.setReg r b).mem = s.mem := rfl
@[simp] theorem State.setReg_fb (s : State) (r : Reg) (b : Byte) : (s.setReg r b).fb = s.fb := rfl
@[simp] theorem State.setReg_held (s : State) (r : Reg) (b : Byte) : (s.setReg r b).held = s.held := rfl
@[simp] theorem State.setReg_edge (s : State) (r : Reg) (b : Byte) : (s.setReg r b).edge = s.edge := rfl
@[simp] theorem State.setReg_fault (s : State) (r : Reg) (b : Byte) : (s.setReg r b).fault = s.fault := rfl
@[simp] theorem State.setReg_draws (s : State) (r : Reg) (b : Byte) : (s.setReg r b).draws = s.draws := rfl
@[simp] theorem State.setReg_schedule (s : State) (r : Reg) (b : Byte) : (s.setReg r b).schedule = s.schedule := rfl
@[simp] theorem State.setReg_memRead (s : State) (r : Reg) (b : Byte) (c : Nat) : (s.setReg r b).memRead c = s.memRead c := rfl
@[simp] theorem State.setReg_ea (s : State) (r : Reg) (b : Byte) (j : Nat) : (s.setReg r b).ea j = s.ea j := rfl

/-! ### `State.setPc` -/

@[simp] theorem State.setPc_v (s : State) (n : Nat) : (s.setPc n).v = s.v := rfl
@[simp] theorem State.setPc_i (s : State) (n : Nat) : (s.setPc n).i = s.i := rfl
@[simp] theorem State.setPc_sp (s : State) (n : Nat) : (s.setPc n).sp = s.sp := rfl
@[simp] theorem State.setPc_stack (s : State) (n : Nat) : (s.setPc n).stack = s.stack := rfl
@[simp] theorem State.setPc_dt (s : State) (n : Nat) : (s.setPc n).dt = s.dt := rfl
@[simp] theorem State.setPc_st (s : State) (n : Nat) : (s.setPc n).st = s.st := rfl
@[simp] theorem State.setPc_mem (s : State) (n : Nat) : (s.setPc n).mem = s.mem := rfl
@[simp] theorem State.setPc_fb (s : State) (n : Nat) : (s.setPc n).fb = s.fb := rfl
@[simp] theorem State.setPc_held (s : State) (n : Nat) : (s.setPc n).held = s.held := rfl
@[simp] theorem State.setPc_edge (s : State) (n : Nat) : (s.setPc n).edge = s.edge := rfl
@[simp] theorem State.setPc_fault (s : State) (n : Nat) : (s.setPc n).fault = s.fault := rfl
@[simp] theorem State.setPc_draws (s : State) (n : Nat) : (s.setPc n).draws = s.draws := rfl
@[simp] theorem State.setPc_schedule (s : State) (n : Nat) : (s.setPc n).schedule = s.schedule := rfl
@[simp] theorem State.setPc_reg (s : State) (n : Nat) (q : Reg) : (s.setPc n).reg q = s.reg q := rfl
@[simp] theorem State.setPc_memRead (s : State) (n : Nat) (c : Nat) : (s.setPc n).memRead c = s.memRead c := rfl
@[simp] theorem State.setPc_ea (s : State) (n : Nat) (j : Nat) : (s.setPc n).ea j = s.ea j := rfl

/-! ### `State.advance` -/

@[simp] theorem State.advance_v (s : State) : (s.advance).v = s.v := rfl
@[simp] theorem State.advance_i (s : State) : (s.advance).i = s.i := rfl
@[simp] theorem State.advance_sp (s : State) : (s.advance).sp = s.sp := rfl
@[simp] theorem State.advance_stack (s : State) : (s.advance).stack = s.stack := rfl
@[simp] theorem State.advance_dt (s : State) : (s.advance).dt = s.dt := rfl
@[simp] theorem State.advance_st (s : State) : (s.advance).st = s.st := rfl
@[simp] theorem State.advance_mem (s : State) : (s.advance).mem = s.mem := rfl
@[simp] theorem State.advance_fb (s : State) : (s.advance).fb = s.fb := rfl
@[simp] theorem State.advance_held (s : State) : (s.advance).held = s.held := rfl
@[simp] theorem State.advance_edge (s : State) : (s.advance).edge = s.edge := rfl
@[simp] theorem State.advance_fault (s : State) : (s.advance).fault = s.fault := rfl
@[simp] theorem State.advance_draws (s : State) : (s.advance).draws = s.draws := rfl
@[simp] theorem State.advance_schedule (s : State) : (s.advance).schedule = s.schedule := rfl
@[simp] theorem State.advance_reg (s : State) (q : Reg) : (s.advance).reg q = s.reg q := rfl
@[simp] theorem State.advance_memRead (s : State) (c : Nat) : (s.advance).memRead c = s.memRead c := rfl
@[simp] theorem State.advance_ea (s : State) (j : Nat) : (s.advance).ea j = s.ea j := rfl

/-! ### `State.skipIf` -/

@[simp] theorem State.skipIf_v (s : State) (b : Bool) : (s.skipIf b).v = s.v := rfl
@[simp] theorem State.skipIf_i (s : State) (b : Bool) : (s.skipIf b).i = s.i := rfl
@[simp] theorem State.skipIf_sp (s : State) (b : Bool) : (s.skipIf b).sp = s.sp := rfl
@[simp] theorem State.skipIf_stack (s : State) (b : Bool) : (s.skipIf b).stack = s.stack := rfl
@[simp] theorem State.skipIf_dt (s : State) (b : Bool) : (s.skipIf b).dt = s.dt := rfl
@[simp] theorem State.skipIf_st (s : State) (b : Bool) : (s.skipIf b).st = s.st := rfl
@[simp] theorem State.skipIf_mem (s : State) (b : Bool) : (s.skipIf b).mem = s.mem := rfl
@[simp] theorem State.skipIf_fb (s : State) (b : Bool) : (s.skipIf b).fb = s.fb := rfl
@[simp] theorem State.skipIf_held (s : State) (b : Bool) : (s.skipIf b).held = s.held := rfl
@[simp] theorem State.skipIf_edge (s : State) (b : Bool) : (s.skipIf b).edge = s.edge := rfl
@[simp] theorem State.skipIf_fault (s : State) (b : Bool) : (s.skipIf b).fault = s.fault := rfl
@[simp] theorem State.skipIf_draws (s : State) (b : Bool) : (s.skipIf b).draws = s.draws := rfl
@[simp] theorem State.skipIf_schedule (s : State) (b : Bool) : (s.skipIf b).schedule = s.schedule := rfl
@[simp] theorem State.skipIf_reg (s : State) (b : Bool) (q : Reg) : (s.skipIf b).reg q = s.reg q := rfl
@[simp] theorem State.skipIf_memRead (s : State) (b : Bool) (c : Nat) : (s.skipIf b).memRead c = s.memRead c := rfl
@[simp] theorem State.skipIf_ea (s : State) (b : Bool) (j : Nat) : (s.skipIf b).ea j = s.ea j := rfl

/-! ### `State.memWrite` -/

@[simp] theorem State.memWrite_v (s : State) (a : Nat) (b : Byte) : (s.memWrite a b).v = s.v := rfl
@[simp] theorem State.memWrite_pc (s : State) (a : Nat) (b : Byte) : (s.memWrite a b).pc = s.pc := rfl
@[simp] theorem State.memWrite_i (s : State) (a : Nat) (b : Byte) : (s.memWrite a b).i = s.i := rfl
@[simp] theorem State.memWrite_sp (s : State) (a : Nat) (b : Byte) : (s.memWrite a b).sp = s.sp := rfl
@[simp] theorem State.memWrite_stack (s : State) (a : Nat) (b : Byte) : (s.memWrite a b).stack = s.stack := rfl
@[simp] theorem State.memWrite_dt (s : State) (a : Nat) (b : Byte) : (s.memWrite a b).dt = s.dt := rfl
@[simp] theorem State.memWrite_st (s : State) (a : Nat) (b : Byte) : (s.memWrite a b).st = s.st := rfl
@[simp] theorem State.memWrite_fb (s : State) (a : Nat) (b : Byte) : (s.memWrite a b).fb = s.fb := rfl
@[simp] theorem State.memWrite_held (s : State) (a : Nat) (b : Byte) : (s.memWrite a b).held = s.held := rfl
@[simp] theorem State.memWrite_edge (s : State) (a : Nat) (b : Byte) : (s.memWrite a b).edge = s.edge := rfl
@[simp] theorem State.memWrite_fault (s : State) (a : Nat) (b : Byte) : (s.memWrite a b).fault = s.fault := rfl
@[simp] theorem State.memWrite_draws (s : State) (a : Nat) (b : Byte) : (s.memWrite a b).draws = s.draws := rfl
@[simp] theorem State.memWrite_schedule (s : State) (a : Nat) (b : Byte) : (s.memWrite a b).schedule = s.schedule := rfl
@[simp] theorem State.memWrite_reg (s : State) (a : Nat) (b : Byte) (q : Reg) : (s.memWrite a b).reg q = s.reg q := rfl
@[simp] theorem State.memWrite_ea (s : State) (a : Nat) (b : Byte) (j : Nat) : (s.memWrite a b).ea j = s.ea j := rfl

/-! ### `State.setResultAndFlag` -/

@[simp] theorem State.setResultAndFlag_pc (s : State) (x : Reg) (a b : Byte) : (s.setResultAndFlag x a b).pc = s.pc := rfl
@[simp] theorem State.setResultAndFlag_i (s : State) (x : Reg) (a b : Byte) : (s.setResultAndFlag x a b).i = s.i := rfl
@[simp] theorem State.setResultAndFlag_sp (s : State) (x : Reg) (a b : Byte) : (s.setResultAndFlag x a b).sp = s.sp := rfl
@[simp] theorem State.setResultAndFlag_stack (s : State) (x : Reg) (a b : Byte) : (s.setResultAndFlag x a b).stack = s.stack := rfl
@[simp] theorem State.setResultAndFlag_dt (s : State) (x : Reg) (a b : Byte) : (s.setResultAndFlag x a b).dt = s.dt := rfl
@[simp] theorem State.setResultAndFlag_st (s : State) (x : Reg) (a b : Byte) : (s.setResultAndFlag x a b).st = s.st := rfl
@[simp] theorem State.setResultAndFlag_mem (s : State) (x : Reg) (a b : Byte) : (s.setResultAndFlag x a b).mem = s.mem := rfl
@[simp] theorem State.setResultAndFlag_fb (s : State) (x : Reg) (a b : Byte) : (s.setResultAndFlag x a b).fb = s.fb := rfl
@[simp] theorem State.setResultAndFlag_held (s : State) (x : Reg) (a b : Byte) : (s.setResultAndFlag x a b).held = s.held := rfl
@[simp] theorem State.setResultAndFlag_edge (s : State) (x : Reg) (a b : Byte) : (s.setResultAndFlag x a b).edge = s.edge := rfl
@[simp] theorem State.setResultAndFlag_fault (s : State) (x : Reg) (a b : Byte) : (s.setResultAndFlag x a b).fault = s.fault := rfl
@[simp] theorem State.setResultAndFlag_draws (s : State) (x : Reg) (a b : Byte) : (s.setResultAndFlag x a b).draws = s.draws := rfl
@[simp] theorem State.setResultAndFlag_schedule (s : State) (x : Reg) (a b : Byte) : (s.setResultAndFlag x a b).schedule = s.schedule := rfl
@[simp] theorem State.setResultAndFlag_memRead (s : State) (x : Reg) (a b : Byte) (c : Nat) : (s.setResultAndFlag x a b).memRead c = s.memRead c := rfl
@[simp] theorem State.setResultAndFlag_ea (s : State) (x : Reg) (a b : Byte) (j : Nat) : (s.setResultAndFlag x a b).ea j = s.ea j := rfl

/-! ### `State.drawn` -/

@[simp] theorem State.drawn_v (s : State) : (s.drawn).v = s.v := rfl
@[simp] theorem State.drawn_pc (s : State) : (s.drawn).pc = s.pc := rfl
@[simp] theorem State.drawn_i (s : State) : (s.drawn).i = s.i := rfl
@[simp] theorem State.drawn_sp (s : State) : (s.drawn).sp = s.sp := rfl
@[simp] theorem State.drawn_stack (s : State) : (s.drawn).stack = s.stack := rfl
@[simp] theorem State.drawn_dt (s : State) : (s.drawn).dt = s.dt := rfl
@[simp] theorem State.drawn_st (s : State) : (s.drawn).st = s.st := rfl
@[simp] theorem State.drawn_mem (s : State) : (s.drawn).mem = s.mem := rfl
@[simp] theorem State.drawn_fb (s : State) : (s.drawn).fb = s.fb := rfl
@[simp] theorem State.drawn_held (s : State) : (s.drawn).held = s.held := rfl
@[simp] theorem State.drawn_edge (s : State) : (s.drawn).edge = s.edge := rfl
@[simp] theorem State.drawn_fault (s : State) : (s.drawn).fault = s.fault := rfl
@[simp] theorem State.drawn_schedule (s : State) : (s.drawn).schedule = s.schedule := rfl
@[simp] theorem State.drawn_reg (s : State) (q : Reg) : (s.drawn).reg q = s.reg q := rfl
@[simp] theorem State.drawn_memRead (s : State) (c : Nat) : (s.drawn).memRead c = s.memRead c := rfl
@[simp] theorem State.drawn_ea (s : State) (j : Nat) : (s.drawn).ea j = s.ea j := rfl

/-! ### `State.raise` -/

@[simp] theorem State.raise_v (s : State) (k : FaultKind) : (s.raise k).v = s.v := rfl
@[simp] theorem State.raise_pc (s : State) (k : FaultKind) : (s.raise k).pc = s.pc := rfl
@[simp] theorem State.raise_i (s : State) (k : FaultKind) : (s.raise k).i = s.i := rfl
@[simp] theorem State.raise_sp (s : State) (k : FaultKind) : (s.raise k).sp = s.sp := rfl
@[simp] theorem State.raise_stack (s : State) (k : FaultKind) : (s.raise k).stack = s.stack := rfl
@[simp] theorem State.raise_dt (s : State) (k : FaultKind) : (s.raise k).dt = s.dt := rfl
@[simp] theorem State.raise_st (s : State) (k : FaultKind) : (s.raise k).st = s.st := rfl
@[simp] theorem State.raise_mem (s : State) (k : FaultKind) : (s.raise k).mem = s.mem := rfl
@[simp] theorem State.raise_fb (s : State) (k : FaultKind) : (s.raise k).fb = s.fb := rfl
@[simp] theorem State.raise_held (s : State) (k : FaultKind) : (s.raise k).held = s.held := rfl
@[simp] theorem State.raise_edge (s : State) (k : FaultKind) : (s.raise k).edge = s.edge := rfl
@[simp] theorem State.raise_draws (s : State) (k : FaultKind) : (s.raise k).draws = s.draws := rfl
@[simp] theorem State.raise_schedule (s : State) (k : FaultKind) : (s.raise k).schedule = s.schedule := rfl
@[simp] theorem State.raise_reg (s : State) (k : FaultKind) (q : Reg) : (s.raise k).reg q = s.reg q := rfl
@[simp] theorem State.raise_memRead (s : State) (k : FaultKind) (c : Nat) : (s.raise k).memRead c = s.memRead c := rfl
@[simp] theorem State.raise_ea (s : State) (k : FaultKind) (j : Nat) : (s.raise k).ea j = s.ea j := rfl

/-! ### The field an update writes -/

@[simp] theorem State.drawn_draws (s : State) : s.drawn.draws = s.draws + 1 := rfl
@[simp] theorem State.raise_fault (s : State) (k : FaultKind) : (s.raise k).fault = some k := rfl
@[simp] theorem State.memWrite_mem (s : State) (a : Nat) (b : Byte) :
    (s.memWrite a b).mem = Memory.write s.mem (a % 4096) b := rfl

/-! ### Reads through a record update of another field -/

@[simp] theorem State.reg_with_i (s : State) (w : Word) (r : Reg) : { s with i := w }.reg r = s.reg r := rfl
@[simp] theorem State.reg_with_dt (s : State) (b : Byte) (r : Reg) : { s with dt := b }.reg r = s.reg r := rfl
@[simp] theorem State.reg_with_st (s : State) (b : Byte) (r : Reg) : { s with st := b }.reg r = s.reg r := rfl
@[simp] theorem State.reg_with_fb (s : State) (f : Framebuffer) (r : Reg) : { s with fb := f }.reg r = s.reg r := rfl
@[simp] theorem State.reg_with_edge (s : State) (e : Option Key) (r : Reg) :
    { s with edge := e }.reg r = s.reg r := rfl
@[simp] theorem State.memRead_with_i (s : State) (w : Word) (a : Nat) :
    { s with i := w }.memRead a = s.memRead a := rfl
@[simp] theorem State.memRead_with_dt (s : State) (b : Byte) (a : Nat) :
    { s with dt := b }.memRead a = s.memRead a := rfl
@[simp] theorem State.memRead_with_st (s : State) (b : Byte) (a : Nat) :
    { s with st := b }.memRead a = s.memRead a := rfl
@[simp] theorem State.memRead_with_fb (s : State) (f : Framebuffer) (a : Nat) :
    { s with fb := f }.memRead a = s.memRead a := rfl
@[simp] theorem State.memRead_with_edge (s : State) (e : Option Key) (a : Nat) :
    { s with edge := e }.memRead a = s.memRead a := rfl

end Sys2Proof.Machine
end

