-- ==== Sys2Proof/Laws/Memory.lean ====
section
/-!
SUPPORT. The laws of RAM: a read after a write gives the byte written, a write leaves every other address alone,
and every memory operation keeps the canonical form.
-/

namespace Sys2Proof.Machine

/-! ### Reading -/

theorem Memory.read_erase_self (m : Memory) (a : Nat) : (Memory.erase m a).read a = resetByte a := by
  induction m with
  | nil => rfl
  | cons c m ih =>
    obtain ⟨b, w⟩ := c
    by_cases h : b = a
    · simpa [Memory.erase, h] using ih
    · simpa [Memory.erase, Memory.read, h, Ne.symm h] using ih

theorem Memory.read_erase_of_ne (m : Memory) {a c : Nat} (h : c ≠ a) : (Memory.erase m a).read c = m.read c := by
  induction m with
  | nil => rfl
  | cons d m ih =>
    obtain ⟨b, w⟩ := d
    by_cases hb : b = a
    · subst hb
      simpa [Memory.erase, Memory.read, h] using ih
    · by_cases hc : c = b
      · simp [Memory.erase, Memory.read, hb, hc]
      · simpa [Memory.erase, Memory.read, hb, hc] using ih

theorem Memory.read_insert_self (m : Memory) (a : Nat) (v : Byte) : (Memory.insert m a v).read a = v := by
  induction m with
  | nil => simp [Memory.insert, Memory.read]
  | cons d m ih =>
    obtain ⟨b, w⟩ := d
    unfold Memory.insert
    split
    · rename_i hlt
      simpa [Memory.read, Nat.ne_of_gt hlt] using ih
    · simp [Memory.read]

theorem Memory.read_insert_of_ne (m : Memory) {a c : Nat} (v : Byte) (h : c ≠ a) :
    (Memory.insert m a v).read c = m.read c := by
  induction m with
  | nil => simp [Memory.insert, Memory.read, h]
  | cons d m ih =>
    obtain ⟨b, w⟩ := d
    unfold Memory.insert
    split
    · by_cases hc : c = b
      · simp [Memory.read, hc]
      · simpa [Memory.read, hc] using ih
    · simp [Memory.read, h]

/-- One byte read after one byte written, at any two addresses. -/
theorem Memory.read_write (m : Memory) (a c : Nat) (v : Byte) :
    (Memory.write m a v).read c = if c = a then v else m.read c := by
  unfold Memory.write
  by_cases hc : c = a
  · subst hc
    split
    · rename_i hv
      simp [Memory.read_erase_self, hv]
    · simp [Memory.read_insert_self]
  · split
    · simp [Memory.read_erase_of_ne m hc]
    · simp [Memory.read_insert_of_ne _ v hc, Memory.read_erase_of_ne m hc]

/-! ### The canonical form -/

@[simp] theorem Memory.wfFrom_nil (lo : Nat) : Memory.wfFrom lo [] = true := rfl

theorem Memory.wfFrom_cons {lo a : Nat} {v : Byte} {m : Memory} :
    Memory.wfFrom lo ((a, v) :: m) = true ↔
      lo ≤ a ∧ a < 4096 ∧ v ≠ resetByte a ∧ Memory.wfFrom (a + 1) m = true := by
  simp [Memory.wfFrom, and_assoc]

theorem Memory.wfFrom_mono {lo lo' : Nat} {m : Memory} (h : lo ≤ lo') (hm : Memory.wfFrom lo' m = true) :
    Memory.wfFrom lo m = true := by
  cases m with
  | nil => rfl
  | cons c m =>
    rw [Memory.wfFrom_cons] at hm ⊢
    exact ⟨Nat.le_trans h hm.1, hm.2⟩

theorem Memory.wfFrom_erase {lo : Nat} {m : Memory} (a : Nat) (hm : Memory.wfFrom lo m = true) :
    Memory.wfFrom lo (Memory.erase m a) = true := by
  induction m generalizing lo with
  | nil => rfl
  | cons c m ih =>
    obtain ⟨b, w⟩ := c
    rw [Memory.wfFrom_cons] at hm
    obtain ⟨hlo, hb, hw, hrest⟩ := hm
    by_cases h : b = a
    · have := Memory.wfFrom_mono (Nat.le_succ_of_le hlo) (ih hrest)
      simpa [Memory.erase, h] using this
    · have : Memory.wfFrom lo ((b, w) :: Memory.erase m a) = true :=
        Memory.wfFrom_cons.2 ⟨hlo, hb, hw, ih hrest⟩
      simpa [Memory.erase, h] using this

theorem Memory.wfFrom_insert {lo a : Nat} {v : Byte} {m : Memory} (hm : Memory.wfFrom lo m = true)
    (hlo : lo ≤ a) (ha : a < 4096) (hv : v ≠ resetByte a) (hfree : ∀ c ∈ m, c.1 ≠ a) :
    Memory.wfFrom lo (Memory.insert m a v) = true := by
  induction m generalizing lo with
  | nil => exact Memory.wfFrom_cons.2 ⟨hlo, ha, hv, rfl⟩
  | cons c m ih =>
    obtain ⟨b, w⟩ := c
    have hb : b ≠ a := hfree (b, w) (by simp)
    rw [Memory.wfFrom_cons] at hm
    obtain ⟨hlb, hb4, hw, hrest⟩ := hm
    unfold Memory.insert
    split
    · rename_i hlt
      exact Memory.wfFrom_cons.2 ⟨hlb, hb4, hw, ih hrest hlt fun c hc => hfree c (by simp [hc])⟩
    · rename_i hge
      exact Memory.wfFrom_cons.2 ⟨hlo, ha, hv, Memory.wfFrom_cons.2 ⟨by omega, hb4, hw, hrest⟩⟩

theorem Memory.erase_free (m : Memory) (a : Nat) : ∀ c ∈ Memory.erase m a, c.1 ≠ a := by
  intro c hc
  simpa [Memory.erase] using (List.mem_filter.1 hc).2

/-- Writing a byte keeps the canonical form. -/
theorem Memory.wf_write {m : Memory} {a : Nat} (v : Byte) (hm : Memory.wf m = true) (ha : a < 4096) :
    Memory.wf (Memory.write m a v) = true := by
  unfold Memory.write
  split
  · exact Memory.wfFrom_erase a hm
  · rename_i hv
    exact Memory.wfFrom_insert (Memory.wfFrom_erase a hm) (Nat.zero_le a) ha hv (Memory.erase_free m a)

/-- The memory of the reset state, which lists nothing, is in canonical form. -/
theorem Memory.wf_reset : Memory.wf State.reset.mem = true := rfl

/-! ### The two memory operations of the state -/

/-- MemRead after MemWrite: the byte written at the same 12-bit address, the old byte at every other. -/
theorem State.memRead_memWrite (s : State) (a c : Nat) (b : Byte) :
    (s.memWrite a b).memRead c = if c % 4096 = a % 4096 then b else s.memRead c :=
  Memory.read_write s.mem (a % 4096) (c % 4096) b

theorem State.memRead_memWrite_same (s : State) (a : Nat) (b : Byte) : (s.memWrite a b).memRead a = b := by
  simp [State.memRead_memWrite]

theorem State.memRead_memWrite_of_ne (s : State) {a c : Nat} (b : Byte) (h : c % 4096 ≠ a % 4096) :
    (s.memWrite a b).memRead c = s.memRead c := by
  simp [State.memRead_memWrite, h]

/-- MemRead sees an address modulo 4096. -/
theorem State.memRead_mod (s : State) (a : Nat) : s.memRead (a % 4096) = s.memRead a := by
  simp [State.memRead]

theorem State.memWrite_wf {s : State} (a : Nat) (b : Byte) (h : Memory.wf s.mem = true) :
    Memory.wf (s.memWrite a b).mem = true :=
  Memory.wf_write b h (Nat.mod_lt _ (by decide))

end Sys2Proof.Machine
end

