-- ==== Sys2Proof/Laws/Ops.lean ====
section
/-!
SUPPORT. What each shared operation does, said once: registers, PC, the stack, the register loops of Fx55 and Fx65.
-/

namespace Sys2Proof.Machine

/-! ### Registers -/

/-- A register read after a register write (R21: no register aliases another). -/
theorem State.reg_setReg (s : State) (r q : Reg) (b : Byte) :
    (s.setReg r b).reg q = if q = r then b else s.reg q := by
  simp only [State.reg, State.setReg, Vector.getElem_set, Fin.ext_iff, eq_comm]

@[simp] theorem State.reg_setReg_same (s : State) (r : Reg) (b : Byte) : (s.setReg r b).reg r = b := by
  simp [State.reg_setReg]

theorem State.reg_setReg_of_ne (s : State) {r q : Reg} (b : Byte) (h : q ≠ r) :
    (s.setReg r b).reg q = s.reg q := by
  simp [State.reg_setReg, h]

/-- The flag is what VF holds afterwards; Vx holds the result unless x = 15; every other register is kept (R150). -/
theorem State.reg_setResultAndFlag (s : State) (x q : Reg) (a f : Byte) :
    (s.setResultAndFlag x a f).reg q = if q = Reg.vf then f else if q = x then a else s.reg q := by
  simp only [State.setResultAndFlag, State.reg_setReg]

/-! ### Program counter -/

theorem State.setPc_pc_toNat (s : State) (n : Nat) : (s.setPc n).pc.toNat = n % 4096 := by
  simp only [State.setPc, BitVec.toNat_ofNat]
  omega

theorem State.advance_pc_toNat (s : State) : s.advance.pc.toNat = (s.pc.toNat + 2) % 4096 :=
  s.setPc_pc_toNat _

theorem State.skipIf_pc_toNat (s : State) (b : Bool) :
    (s.skipIf b).pc.toNat = (s.pc.toNat + if b then 4 else 2) % 4096 :=
  s.setPc_pc_toNat _

/-! ### Stack -/

/-- With room on the stack, a push answers: SP grows by one, the slot at the old SP holds the address, every other
slot is kept. -/
theorem State.push_of_room (s : State) (a : Word) (h : s.sp.toNat < 16) :
    s.push a = some { s with stack := s.stack.set s.sp.toNat a, sp := s.sp + 1#8 } := by
  simp [State.push, h]

theorem State.push_eq_none (s : State) (a : Word) : s.push a = none ↔ 16 ≤ s.sp.toNat := by
  unfold State.push
  split <;> simp <;> omega

/-- With an address on the stack, a pop answers the top and SP falls by one. -/
theorem State.pop_of_nonempty (s : State) (h0 : 0 < s.sp.toNat) (h : s.sp.toNat ≤ 16) :
    s.pop = some (s.stack[s.sp.toNat - 1]'(by omega), { s with sp := s.sp - 1#8 }) := by
  simp [State.pop, h0, h]

theorem State.pop_eq_none (s : State) : s.pop = none ↔ s.sp.toNat = 0 ∨ 16 < s.sp.toNat := by
  unfold State.pop
  split <;> simp <;> omega

/-! ### Effective addresses and flags -/

theorem State.ea_lt (s : State) (k : Nat) : s.ea k < 4096 := Nat.mod_lt _ (by decide)

/-- Offsets that differ by less than 4096 reach different bytes (spec/20_memory.md R67). -/
theorem State.ea_inj (s : State) {j k : Nat} (hj : j < 4096) (hk : k < 4096) : s.ea j = s.ea k ↔ j = k := by
  unfold State.ea
  omega

theorem flagByte_eq_one (b : Bool) : flagByte b = 1#8 ↔ b = true := by cases b <;> decide

theorem flagByte_zero_or_one (b : Bool) : flagByte b = 0#8 ∨ flagByte b = 1#8 := by cases b <;> decide

theorem lowBitFlag_eq (a : Byte) : lowBitFlag a = flagByte (a.getLsbD 0) := by
  revert a
  decide

theorem highBitFlag_eq (a : Byte) : highBitFlag a = flagByte (a.getLsbD 7) := by
  revert a
  decide

/-! ### The loop of Fx55 (R208) -/

@[simp] theorem State.storeRegs_zero (s : State) : s.storeRegs 0 = s := rfl

/-- Storing registers changes RAM and nothing else. -/
theorem State.storeRegs_eq (s : State) (n : Nat) : s.storeRegs n = { s with mem := (s.storeRegs n).mem } := by
  induction n with
  | zero => rfl
  | succ n ih => rw [State.storeRegs, ih]; rfl

/-- Every byte after the loop: the k-th register at offset k from I, and elsewhere what was there. -/
theorem State.memRead_storeRegs (s : State) {n : Nat} (hn : n ≤ 16) :
    (∀ k < n, (s.storeRegs n).memRead (s.ea k) = s.reg (regAt k)) ∧
      ∀ a, (∀ k < n, a % 4096 ≠ s.ea k) → (s.storeRegs n).memRead a = s.memRead a := by
  induction n with
  | zero => exact ⟨fun k hk => absurd hk (Nat.not_lt_zero k), fun a _ => rfl⟩
  | succ n ih =>
    obtain ⟨ihIn, ihOut⟩ := ih (by omega)
    have hmod : ∀ k, s.ea k % 4096 = s.ea k := fun k => Nat.mod_eq_of_lt (s.ea_lt k)
    constructor
    · intro k hk
      rw [State.storeRegs, State.memRead_memWrite, hmod, hmod]
      by_cases h : k = n
      · simp [h]
      · have : ¬ s.ea k = s.ea n := by
          rw [State.ea_inj s (by omega) (by omega)]; exact h
        rw [if_neg this]
        exact ihIn k (by omega)
    · intro a ha
      rw [State.storeRegs, State.memRead_memWrite, hmod, if_neg (ha n (by omega))]
      exact ihOut a fun k hk => ha k (by omega)

theorem State.storeRegs_wf {s : State} (n : Nat) (h : Memory.wf s.mem = true) :
    Memory.wf (s.storeRegs n).mem = true := by
  induction n with
  | zero => exact h
  | succ n ih => exact State.memWrite_wf _ _ ih

/-! ### The loop of Fx65 (R209) -/

@[simp] theorem State.loadRegs_zero (s : State) : s.loadRegs 0 = s := rfl

/-- Loading registers changes registers and nothing else. -/
theorem State.loadRegs_eq (s : State) (n : Nat) : s.loadRegs n = { s with v := (s.loadRegs n).v } := by
  induction n with
  | zero => rfl
  | succ n ih => rw [State.loadRegs, ih]; rfl

/-- Every register after the loop: the byte at its offset from I for the first n, and for the others what it held. -/
theorem State.reg_loadRegs (s : State) {n : Nat} (hn : n ≤ 16) (r : Reg) :
    (s.loadRegs n).reg r = if r.val < n then s.memRead (s.ea r.val) else s.reg r := by
  induction n with
  | zero => simp
  | succ n ih =>
    have hval : (regAt n).val = n := Nat.mod_eq_of_lt (by omega)
    rw [State.loadRegs, State.reg_setReg]
    by_cases h : r = regAt n
    · rw [if_pos h, h, hval, if_pos (by omega)]
    · have hne : r.val ≠ n := fun e => h (Fin.ext (by rw [hval, e]))
      rw [if_neg h, ih (by omega)]
      by_cases hlt : r.val < n
      · rw [if_pos hlt, if_pos (by omega)]
      · rw [if_neg hlt, if_neg (by omega)]

end Sys2Proof.Machine
end

