-- ==== Sys2Proof/Laws/Blit.lean ====
section
/-!
SUPPORT. The framebuffer and the sprite blit (spec/42_display.md R182, R183): one pixel written, one row, one
sprite, each said pixel by pixel.
-/

namespace Sys2Proof.Machine

/-- A pixel read after a pixel written. -/
theorem Framebuffer.pixel_setPixel (fb : Framebuffer) (py qy : Fin 32) (px qx : Fin 64) (b : Bool) :
    Framebuffer.pixel (Framebuffer.setPixel fb py px b) qy qx =
      if qy = py ∧ qx = px then b else Framebuffer.pixel fb qy qx := by
  simp only [Framebuffer.pixel, Framebuffer.setPixel, Vector.getElem_set]
  by_cases hy : py.val = qy.val
  · have hy' : qy = py := Fin.ext hy.symm
    subst hy'
    simp only [if_true, Vector.getElem_set, true_and, Fin.ext_iff, eq_comm]
  · have hy' : ¬ qy = py := fun e => hy (by rw [e])
    simp [hy, hy']

@[simp] theorem Framebuffer.pixel_blank (py : Fin 32) (px : Fin 64) :
    Framebuffer.pixel Framebuffer.blank py px = false := by
  simp [Framebuffer.pixel, Framebuffer.blank]

/-- Two framebuffers with the same pixels are the same. -/
theorem Framebuffer.ext {f g : Framebuffer}
    (h : ∀ py px, Framebuffer.pixel f py px = Framebuffer.pixel g py px) : f = g := by
  apply Vector.ext
  intro i hi
  apply Vector.ext
  intro j hj
  exact h ⟨i, hi⟩ ⟨j, hj⟩

/-- One turn of the inner loop, seen at a pixel. -/
theorem Blit.pixel_fst (d : Blit) (py qy : Fin 32) (px qx : Fin 64) (bit : Bool) :
    Framebuffer.pixel (Blit.pixel d py px bit).1 qy qx =
      (Framebuffer.pixel d.1 qy qx ^^ (decide (qy = py ∧ qx = px) && bit)) := by
  obtain ⟨fb, hit⟩ := d
  simp only [Blit.pixel, Framebuffer.pixel_setPixel]
  by_cases h : qy = py ∧ qx = px
  · obtain ⟨rfl, rfl⟩ := h
    simp
  · simp [h]

/-- One turn of the inner loop, the collision flag. -/
theorem Blit.pixel_snd (d : Blit) (py : Fin 32) (px : Fin 64) (bit : Bool) :
    (Blit.pixel d py px bit).2 = (d.2 || (Framebuffer.pixel d.1 py px && bit)) := rfl

/-- The first `n` columns of a row leave every pixel that none of them lands on. -/
theorem Blit.columns_fst_of_ne (row vx : Byte) (py : Fin 32) (n : Nat) (d : Blit) (qy : Fin 32) (qx : Fin 64)
    (h : qy = py → ∀ c < n, qx ≠ colAt (vx.toNat + c)) :
    Framebuffer.pixel (Blit.columns row vx py n d).1 qy qx = Framebuffer.pixel d.1 qy qx := by
  induction n with
  | zero => rfl
  | succ n ih =>
    rw [Blit.columns, Blit.pixel_fst, ih fun hy c hc => h hy c (by omega)]
    have : ¬ (qy = py ∧ qx = colAt (vx.toNat + n)) := fun e => h e.1 n (by omega) e.2
    simp [this]

/-- Columns at most 64 apart are different columns of the screen (R183). -/
theorem column_inj (vx : Byte) {c d : Nat} (hc : c < 64) (hd : d < 64) :
    colAt (vx.toNat + c) = colAt (vx.toNat + d) ↔ c = d := by
  simp only [Fin.ext_iff, colAt]
  omega

/-- Rows at most 32 apart are different rows of the screen (R183). -/
theorem row_inj (vy : Byte) {r q : Nat} (hr : r < 32) (hq : q < 32) :
    rowAt (vy.toNat + r) = rowAt (vy.toNat + q) ↔ r = q := by
  simp only [Fin.ext_iff, rowAt]
  omega

/-- The first `n` columns of a row flip the pixel under each 1 bit, once. -/
theorem Blit.columns_fst_at (row vx : Byte) (py : Fin 32) {n : Nat} (hn : n ≤ 8) (d : Blit) {c : Nat} (hc : c < n) :
    Framebuffer.pixel (Blit.columns row vx py n d).1 py (colAt (vx.toNat + c)) =
      (Framebuffer.pixel d.1 py (colAt (vx.toNat + c)) ^^ spriteBit row c) := by
  induction n with
  | zero => exact absurd hc (Nat.not_lt_zero c)
  | succ n ih =>
    rw [Blit.columns, Blit.pixel_fst]
    by_cases h : c = n
    · subst h
      rw [Blit.columns_fst_of_ne row vx py c d _ _ fun _ e he heq =>
        absurd ((column_inj vx (by omega) (by omega)).1 heq) (by omega)]
      simp
    · rw [ih (by omega) (by omega)]
      have : ¬ colAt (vx.toNat + c) = colAt (vx.toNat + n) := by
        rw [column_inj vx (by omega) (by omega)]; exact h
      simp [this]

/-- The collision of the first `n` columns: some 1 bit landed on a pixel that was 1 before the row. -/
theorem Blit.columns_snd (row vx : Byte) (py : Fin 32) {n : Nat} (hn : n ≤ 8) (d : Blit) :
    (Blit.columns row vx py n d).2 = true ↔
      d.2 = true ∨ ∃ c < n, spriteBit row c = true ∧
        Framebuffer.pixel d.1 py (colAt (vx.toNat + c)) = true := by
  induction n with
  | zero => simp [Blit.columns]
  | succ n ih =>
    rw [Blit.columns, Blit.pixel_snd, Bool.or_eq_true, ih (by omega),
      Blit.columns_fst_of_ne row vx py n d _ _ fun _ e he heq =>
        absurd ((column_inj vx (by omega) (by omega)).1 heq) (by omega), Bool.and_eq_true, or_assoc]
    constructor
    · rintro (h | ⟨c, hc, h⟩ | ⟨hp, hb⟩)
      · exact .inl h
      · exact .inr ⟨c, by omega, h⟩
      · exact .inr ⟨n, by omega, hb, hp⟩
    · rintro (h | ⟨c, hc, hb, hp⟩)
      · exact .inl h
      · by_cases e : c = n
        · subst e
          exact .inr (.inr ⟨hp, hb⟩)
        · exact .inr (.inl ⟨c, by omega, hb, hp⟩)

/-- The first `n` rows of a sprite leave every pixel that none of its bits lies on. -/
theorem Blit.rows_fst_of_ne (s : State) (vx vy : Byte) (n : Nat) (d : Blit) (qy : Fin 32) (qx : Fin 64)
    (h : ∀ r < n, ∀ c < 8, ¬ (qy = rowAt (vy.toNat + r) ∧ qx = colAt (vx.toNat + c))) :
    Framebuffer.pixel (Blit.rows s vx vy n d).1 qy qx = Framebuffer.pixel d.1 qy qx := by
  induction n with
  | zero => rfl
  | succ n ih =>
    rw [Blit.rows, Blit.columns_fst_of_ne _ _ _ _ _ _ _ fun hy c hc hx => h n (by omega) c hc ⟨hy, hx⟩,
      ih fun r hr => h r (by omega)]

/-- The first `n` rows of a sprite flip the pixel under each 1 bit, once (R183). -/
theorem Blit.rows_fst_at (s : State) (vx vy : Byte) {n : Nat} (hn : n ≤ 32) (d : Blit) {r c : Nat}
    (hr : r < n) (hc : c < 8) :
    Framebuffer.pixel (Blit.rows s vx vy n d).1 (rowAt (vy.toNat + r)) (colAt (vx.toNat + c)) =
      (Framebuffer.pixel d.1 (rowAt (vy.toNat + r)) (colAt (vx.toNat + c)) ^^
        spriteBit (s.memRead (s.ea r)) c) := by
  induction n with
  | zero => exact absurd hr (Nat.not_lt_zero r)
  | succ n ih =>
    rw [Blit.rows]
    by_cases h : r = n
    · subst h
      rw [Blit.columns_fst_at _ _ _ (le_refl 8) _ hc, Blit.rows_fst_of_ne s vx vy r d _ _ fun q hq e he heq =>
        absurd ((row_inj vy (by omega) (by omega)).1 heq.1) (by omega)]
    · rw [Blit.columns_fst_of_ne _ _ _ _ _ _ _ fun hy => absurd ((row_inj vy (by omega) (by omega)).1 hy) h,
        ih (by omega) (by omega)]

/-- The collision of the first `n` rows: some 1 bit lies on a pixel that was 1 before the instruction (R182, R183). -/
theorem Blit.rows_snd (s : State) (vx vy : Byte) {n : Nat} (hn : n ≤ 32) (d : Blit) :
    (Blit.rows s vx vy n d).2 = true ↔
      d.2 = true ∨ ∃ r < n, ∃ c < 8, spriteBit (s.memRead (s.ea r)) c = true ∧
        Framebuffer.pixel d.1 (rowAt (vy.toNat + r)) (colAt (vx.toNat + c)) = true := by
  induction n with
  | zero => simp [Blit.rows]
  | succ n ih =>
    have hold : ∀ c, Framebuffer.pixel (Blit.rows s vx vy n d).1 (rowAt (vy.toNat + n))
        (colAt (vx.toNat + c)) =
          Framebuffer.pixel d.1 (rowAt (vy.toNat + n)) (colAt (vx.toNat + c)) := fun c =>
      Blit.rows_fst_of_ne s vx vy n d _ _ fun q hq e he heq =>
        absurd ((row_inj vy (by omega) (by omega)).1 heq.1) (by omega)
    rw [Blit.rows, Blit.columns_snd _ _ _ (le_refl 8), ih (by omega), or_assoc]
    simp only [hold]
    constructor
    · rintro (h | ⟨r, hr, h⟩ | h)
      · exact .inl h
      · exact .inr ⟨r, by omega, h⟩
      · exact .inr ⟨n, by omega, h⟩
    · rintro (h | ⟨r, hr, h⟩)
      · exact .inl h
      · by_cases e : r = n
        · subst e
          exact .inr (.inr h)
        · exact .inr (.inl ⟨r, by omega, h⟩)

end Sys2Proof.Machine
end

