-- ==== Sys2Proof/Laws/Encoding.lean ====
section
/-!
SUPPORT. The fields of a word laid out by each format (spec/30_encoding.md R92, R93): the decoder's field split
undoes the encoder's layouts, and the layouts undo the field split.
-/

namespace Sys2Proof

/-! ### Bits of a layout -/

theorem getLsbD_formNnn (op : BitVec 4) (nnn : Addr12) (k : Nat) :
    (formNnn op nnn).getLsbD k = if k < 12 then nnn.getLsbD k else op.getLsbD (k - 12) :=
  BitVec.getLsbD_append

theorem getLsbD_formXkk (op : BitVec 4) (x : Reg) (kk : Byte) (k : Nat) :
    (formXkk op x kk).getLsbD k =
      if k < 8 then kk.getLsbD k else if k - 8 < 4 then (regBits x).getLsbD (k - 8) else op.getLsbD (k - 12) := by
  refine (BitVec.getLsbD_append (x := op ++ regBits x) (y := kk)).trans ?_
  rw [BitVec.getLsbD_append, show k - 8 - 4 = k - 12 by omega]

theorem getLsbD_formXyn (op : BitVec 4) (x y : Reg) (n : BitVec 4) (k : Nat) :
    (formXyn op x y n).getLsbD k =
      if k < 4 then n.getLsbD k
      else if k - 4 < 4 then (regBits y).getLsbD (k - 4)
      else if k - 8 < 4 then (regBits x).getLsbD (k - 8) else op.getLsbD (k - 12) := by
  refine (BitVec.getLsbD_append (x := op ++ regBits x ++ regBits y) (y := n)).trans ?_
  rw [BitVec.getLsbD_append, BitVec.getLsbD_append, show k - 4 - 4 = k - 8 by omega,
    show k - 8 - 4 = k - 12 by omega]

theorem regBits_toFin (x : Reg) : (regBits x).toFin = x := rfl

/-! ### Fields of a layout -/

@[simp] theorem fieldOp_formNnn (op : BitVec 4) (nnn : Addr12) : fieldOp (formNnn op nnn) = op := by
  apply BitVec.eq_of_getLsbD_eq
  intro k hk
  simp [fieldOp, getLsbD_formNnn, hk]

@[simp] theorem fieldNnn_formNnn (op : BitVec 4) (nnn : Addr12) : fieldNnn (formNnn op nnn) = nnn := by
  apply BitVec.eq_of_getLsbD_eq
  intro k hk
  simp [fieldNnn, getLsbD_formNnn, hk]

@[simp] theorem fieldOp_formXkk (op : BitVec 4) (x : Reg) (kk : Byte) : fieldOp (formXkk op x kk) = op := by
  apply BitVec.eq_of_getLsbD_eq
  intro k hk
  have : ¬ 12 + k < 8 := by omega
  have : ¬ 12 + k - 8 < 4 := by omega
  simp [fieldOp, getLsbD_formXkk, *]

theorem xBits_formXkk (op : BitVec 4) (x : Reg) (kk : Byte) : (formXkk op x kk).extractLsb' 8 4 = regBits x := by
  apply BitVec.eq_of_getLsbD_eq
  intro k hk
  simp [getLsbD_formXkk, hk]

@[simp] theorem fieldX_formXkk (op : BitVec 4) (x : Reg) (kk : Byte) : fieldX (formXkk op x kk) = x := by
  rw [fieldX, xBits_formXkk]
  exact regBits_toFin x

@[simp] theorem fieldKk_formXkk (op : BitVec 4) (x : Reg) (kk : Byte) : fieldKk (formXkk op x kk) = kk := by
  apply BitVec.eq_of_getLsbD_eq
  intro k hk
  simp [fieldKk, getLsbD_formXkk, hk]

@[simp] theorem fieldOp_formXyn (op : BitVec 4) (x y : Reg) (n : BitVec 4) : fieldOp (formXyn op x y n) = op := by
  apply BitVec.eq_of_getLsbD_eq
  intro k hk
  have : ¬ 12 + k < 4 := by omega
  have : ¬ 12 + k - 4 < 4 := by omega
  have : ¬ 12 + k - 8 < 4 := by omega
  simp [fieldOp, getLsbD_formXyn, *]

theorem xBits_formXyn (op : BitVec 4) (x y : Reg) (n : BitVec 4) :
    (formXyn op x y n).extractLsb' 8 4 = regBits x := by
  apply BitVec.eq_of_getLsbD_eq
  intro k hk
  have : ¬ 8 + k < 4 := by omega
  have : ¬ 8 + k - 4 < 4 := by omega
  simp [getLsbD_formXyn, *]

theorem yBits_formXyn (op : BitVec 4) (x y : Reg) (n : BitVec 4) :
    (formXyn op x y n).extractLsb' 4 4 = regBits y := by
  apply BitVec.eq_of_getLsbD_eq
  intro k hk
  simp [getLsbD_formXyn, hk]

@[simp] theorem fieldX_formXyn (op : BitVec 4) (x y : Reg) (n : BitVec 4) : fieldX (formXyn op x y n) = x := by
  rw [fieldX, xBits_formXyn]
  exact regBits_toFin x

@[simp] theorem fieldY_formXyn (op : BitVec 4) (x y : Reg) (n : BitVec 4) : fieldY (formXyn op x y n) = y := by
  rw [fieldY, yBits_formXyn]
  exact regBits_toFin y

@[simp] theorem fieldN_formXyn (op : BitVec 4) (x y : Reg) (n : BitVec 4) : fieldN (formXyn op x y n) = n := by
  apply BitVec.eq_of_getLsbD_eq
  intro k hk
  simp [fieldN, getLsbD_formXyn, hk]

/-! ### A word is the layout of its fields -/

theorem regBits_fieldX (w : Word) : regBits (fieldX w) = w.extractLsb' 8 4 := rfl

theorem regBits_fieldY (w : Word) : regBits (fieldY w) = w.extractLsb' 4 4 := rfl

theorem word_eq_formNnn (w : Word) : w = formNnn (fieldOp w) (fieldNnn w) := by
  apply BitVec.eq_of_getLsbD_eq
  intro k hk
  rw [getLsbD_formNnn]
  split
  · simp [fieldNnn, *]
  · have : k - 12 < 4 := by omega
    simp [fieldOp, *, show 12 + (k - 12) = k by omega]

theorem word_eq_formXkk (w : Word) : w = formXkk (fieldOp w) (fieldX w) (fieldKk w) := by
  apply BitVec.eq_of_getLsbD_eq
  intro k hk
  rw [getLsbD_formXkk, regBits_fieldX]
  split
  · simp [fieldKk, *]
  · split
    · simp [*, show 8 + (k - 8) = k by omega]
    · have : k - 12 < 4 := by omega
      simp [fieldOp, *, show 12 + (k - 12) = k by omega]

theorem word_eq_formXyn (w : Word) : w = formXyn (fieldOp w) (fieldX w) (fieldY w) (fieldN w) := by
  apply BitVec.eq_of_getLsbD_eq
  intro k hk
  rw [getLsbD_formXyn, regBits_fieldX, regBits_fieldY]
  split
  · simp [fieldN, *]
  · split
    · simp [*, show 4 + (k - 4) = k by omega]
    · split
      · simp [*, show 8 + (k - 8) = k by omega]
      · have : k - 12 < 4 := by omega
        simp [fieldOp, *, show 12 + (k - 12) = k by omega]

/-! ### Fields as arithmetic (spec/00_scope.md R9) -/

theorem fieldOp_toNat (w : Word) : (fieldOp w).toNat = w.toNat / 4096 := by
  have := w.isLt
  simp only [fieldOp, BitVec.extractLsb'_toNat, Nat.shiftRight_eq_div_pow]
  omega

theorem fieldX_val (w : Word) : (fieldX w).val = w.toNat / 256 % 16 := by
  show (w.extractLsb' 8 4).toNat = _
  simp only [BitVec.extractLsb'_toNat, Nat.shiftRight_eq_div_pow]

theorem fieldY_val (w : Word) : (fieldY w).val = w.toNat / 16 % 16 := by
  show (w.extractLsb' 4 4).toNat = _
  simp only [BitVec.extractLsb'_toNat, Nat.shiftRight_eq_div_pow]

theorem fieldN_toNat (w : Word) : (fieldN w).toNat = w.toNat % 16 := by
  simp only [fieldN, BitVec.extractLsb'_toNat, Nat.shiftRight_eq_div_pow]
  omega

theorem fieldKk_toNat (w : Word) : (fieldKk w).toNat = w.toNat % 256 := by
  simp only [fieldKk, BitVec.extractLsb'_toNat, Nat.shiftRight_eq_div_pow]
  omega

theorem fieldNnn_toNat (w : Word) : (fieldNnn w).toNat = w.toNat % 4096 := by
  simp only [fieldNnn, BitVec.extractLsb'_toNat, Nat.shiftRight_eq_div_pow]
  omega

/-! ### Bytes of a word -/

theorem wordOfBytes_extract (w : Word) : wordOfBytes (w.extractLsb' 8 8) (w.extractLsb' 0 8) = w := by
  apply BitVec.eq_of_getLsbD_eq
  intro k hk
  refine (BitVec.getLsbD_append (x := w.extractLsb' 8 8) (y := w.extractLsb' 0 8)).trans ?_
  split
  · simp [*]
  · have : k - 8 < 8 := by omega
    simp [*, show 8 + (k - 8) = k by omega]

/-- The byte at the lower address is the more significant (spec/20_memory.md R64). -/
theorem wordOfBytes_toNat (hi lo : Byte) : (wordOfBytes hi lo).toNat = 256 * hi.toNat + lo.toNat := by
  have h : (wordOfBytes hi lo).toNat = hi.toNat <<< 8 ||| lo.toNat := BitVec.toNat_append ..
  rw [h, Nat.shiftLeft_eq, Nat.mul_comm]
  exact (Nat.two_pow_add_eq_or_of_lt lo.isLt hi.toNat).symm

end Sys2Proof
end

