-- ==== Sys2Proof/Laws/Events.lean ====
section
/-!
SUPPORT. What each operation behind the events other than STEP does, said once: the tick of a timer, the bits of
HELD, the copy of an image (spec/60_exceptions.md R235 to R237, spec/70_reset_and_hazards.md R261).
-/

namespace Sys2Proof.Machine

/-! ### Timers and keys -/

/-- A tick is a subtraction that stops at 0. -/
theorem tickDown_toNat (b : Byte) : (tickDown b).toNat = b.toNat - 1 := by
  unfold tickDown
  split
  · rename_i h
    subst h
    rfl
  · rename_i h
    have : b.toNat ≠ 0 := fun e => h (BitVec.eq_of_toNat_eq e)
    simp only [BitVec.toNat_sub, BitVec.toNat_ofNat]
    omega

/-- The bit of key `h` is the bit of no other key. -/
theorem keyBit_getLsbD (h k : Key) : ((1#16 <<< h.val : Word)).getLsbD k.val = decide (k = h) := by
  revert h k
  decide

/-! ### The image -/

/-- Storing an image changes RAM alone. -/
theorem State.storeImage_eq (s : State) (a : Nat) (rom : List Byte) :
    s.storeImage a rom = { s with mem := (s.storeImage a rom).mem } := by
  induction rom generalizing s a with
  | nil => rfl
  | cons b rom ih => rw [State.storeImage, ih]; rfl

/-- Every byte of a stored image that fits, and every byte around it. -/
theorem State.memRead_storeImage (s : State) (a : Nat) (rom : List Byte) (h : a + rom.length ≤ 4096) :
    (∀ k < rom.length, (s.storeImage a rom).memRead (a + k) = rom.getD k 0#8) ∧
      ∀ c, c % 4096 < a ∨ a + rom.length ≤ c % 4096 → (s.storeImage a rom).memRead c = s.memRead c := by
  induction rom generalizing s a with
  | nil => exact ⟨fun k hk => absurd hk (Nat.not_lt_zero k), fun _ _ => rfl⟩
  | cons b rom ih =>
    rw [List.length_cons] at h
    obtain ⟨ihIn, ihOut⟩ := ih (s.memWrite a b) (a + 1) (by omega)
    constructor
    · intro k hk
      rw [State.storeImage]
      cases k with
      | zero => rw [ihOut (a + 0) (by omega), Nat.add_zero, State.memRead_memWrite_same]; rfl
      | succ k =>
        rw [List.length_cons] at hk
        rw [show a + (k + 1) = a + 1 + k by omega, ihIn k (by omega)]
        rfl
    · intro c hc
      rw [List.length_cons] at hc
      rw [State.storeImage, ihOut c (by omega), State.memRead_memWrite_of_ne]
      omega

theorem State.storeImage_wf {s : State} (a : Nat) (rom : List Byte) (h : Memory.wf s.mem = true) :
    Memory.wf (s.storeImage a rom).mem = true := by
  induction rom generalizing s a with
  | nil => exact h
  | cons b rom ih => exact ih (a + 1) (State.memWrite_wf _ _ h)

end Sys2Proof.Machine
end

