-- ==== Sys2Proof/Laws/Step.lean ====
section
/-!
SUPPORT. What one step is, event by event (spec/60_exceptions.md R234, R228), and the fetch of what was placed at PC.
-/

namespace Sys2Proof.Machine

/-! ### Taking the next event -/

theorem State.takeEvent_nil {s : State} (h : s.schedule = []) : s.takeEvent = (.step, s) := by
  simp [State.takeEvent, h]

theorem State.takeEvent_cons {s : State} {e : Event} {rest : List Event} (h : s.schedule = e :: rest) :
    s.takeEvent = (e, { s with schedule := rest }) := by
  simp [State.takeEvent, h]

/-- Taking an event changes nothing but the schedule. -/
theorem State.takeEvent_snd (s : State) : s.takeEvent.2 = { s with schedule := s.schedule.tail } := by
  unfold State.takeEvent
  split
  · rename_i h
    rw [h, List.tail_nil, ← h]
  · rename_i h
    rw [h, List.tail_cons]

@[simp] theorem State.fetchWord_with_schedule (s : State) (es : List Event) :
    { s with schedule := es }.fetchWord = s.fetchWord := rfl

@[simp] theorem State.halted_with_schedule (s : State) (es : List Event) :
    { s with schedule := es }.halted = s.halted := rfl

/-! ### The event STEP -/

theorem stepEvent_of_halted {s : State} {k : FaultKind} (h : s.fault = some k) : stepEvent s = .next s := by
  simp [stepEvent, State.halted, h]

theorem stepEvent_of_decoded {s : State} {i : Instr} (h : s.fault = none) (hd : decode s.fetchWord = .ok i) :
    stepEvent s = exec i s := by
  simp [stepEvent, State.halted, h, hd]

theorem stepEvent_of_reserved {s : State} {e : Reject} (h : s.fault = none) (hd : decode s.fetchWord = .error e) :
    stepEvent s = .next (s.raise .decodeFault) := by
  simp [stepEvent, State.halted, h, hd]

/-! ### One step -/

theorem step_of_nil {s : State} (h : s.schedule = []) : step s = stepEvent s := by
  simp [step, State.takeEvent_nil h, applyEvent]

theorem step_of_cons {s : State} {e : Event} {rest : List Event} (h : s.schedule = e :: rest) :
    step s = applyEvent e { s with schedule := rest } := by
  simp [step, State.takeEvent_cons h]

theorem step_eq (s : State) : step s = applyEvent s.takeEvent.1 { s with schedule := s.schedule.tail } := by
  rw [step, State.takeEvent_snd]

/-! ### The fetch of a placed word -/

theorem State.fetchWord_placeAtPc (s : State) (hi lo : Byte) :
    (s.placeAtPc hi lo).fetchWord = wordOfBytes hi lo := by
  have h1 : (s.placeAtPc hi lo).memRead s.pc.toNat = hi := by
    show ((s.memWrite _ hi).memWrite _ lo).memRead _ = hi
    rw [State.memRead_memWrite, if_neg (by omega), State.memRead_memWrite_same]
  have h2 : (s.placeAtPc hi lo).memRead (s.pc.toNat + 1) = lo :=
    State.memRead_memWrite_same _ _ _
  show wordOfBytes ((s.placeAtPc hi lo).memRead s.pc.toNat) _ = _
  rw [h1]
  exact congrArg _ h2

/-- What the opcode table's word decodes to is what its two bytes decode to. -/
theorem decodeTableWord_eq_some {nbits w : Nat} {i : Instr} :
    decodeTableWord nbits w = some i ↔
      decode (wordOfBytes (tableBytes nbits w).1 (tableBytes nbits w).2) = .ok i := by
  simp only [decodeTableWord, decodeBytes]
  cases decode (wordOfBytes (tableBytes nbits w).1 (tableBytes nbits w).2) <;> simp

end Sys2Proof.Machine
end

