-- ==== Sys2Proof/Laws/Exec.lean ====
section
/-!
SUPPORT. What an answer of `2nnn` and `00EE` can be, what the next state of a STEP can be, and how the frame of
Sys2Proof/Safety.lean composes.
-/

namespace Sys2Proof.Machine

/-- A next state of `00EE`: the fault at SP = 0, or the pop (R122). -/
theorem execRet_cases {s t : State} (h : execRet s = .next t) :
    (s.sp.toNat = 0 ∧ t = s.raise .stackUnderflow) ∨
      ∃ h : 0 < s.sp.toNat ∧ s.sp.toNat ≤ 16,
        t = State.setPc { s with sp := s.sp - 1#8 } ((s.stack[s.sp.toNat - 1]'(by omega)).toNat + 2) := by
  unfold execRet at h
  split at h
  · rename_i h0
    cases h
    exact .inl ⟨congrArg BitVec.toNat h0, rfl⟩
  · rename_i h0
    have h0 : s.sp.toNat ≠ 0 := fun e => h0 (BitVec.eq_of_toNat_eq e)
    by_cases h1 : s.sp.toNat ≤ 16
    · rw [State.pop_of_nonempty s (by omega) h1] at h
      cases h
      exact .inr ⟨⟨by omega, h1⟩, rfl⟩
    · rw [(State.pop_eq_none s).mpr (by omega)] at h
      cases h

/-- A next state of `2nnn`: the fault at SP = 16, or the push (R124). -/
theorem execCall_cases {nnn : Addr12} {s t : State} (h : execCall nnn s = .next t) :
    (s.sp.toNat = 16 ∧ t = s.raise .stackOverflow) ∨
      ∃ h : s.sp.toNat < 16,
        t = State.setPc { s with stack := s.stack.set s.sp.toNat s.pc, sp := s.sp + 1#8 } nnn.toNat := by
  unfold execCall at h
  split at h
  · rename_i h0
    cases h
    exact .inl ⟨congrArg BitVec.toNat h0, rfl⟩
  · by_cases h1 : s.sp.toNat < 16
    · rw [State.push_of_room s _ h1] at h
      cases h
      exact .inr ⟨h1, rfl⟩
    · rw [(State.push_eq_none s _).mpr (by omega)] at h
      cases h

/-- A next state of a STEP of a running core: DecodeFault, or the answer of the decoded instruction. -/
theorem stepEvent_cases {s t : State} (hr : s.fault = none) (h : stepEvent s = .next t) :
    (∃ e, decode s.fetchWord = .error e ∧ t = s.raise .decodeFault) ∨
      ∃ i, decode s.fetchWord = .ok i ∧ exec i s = .next t := by
  cases hd : decode s.fetchWord with
  | error e =>
    rw [stepEvent_of_reserved hr hd] at h
    cases h
    exact .inl ⟨e, rfl, rfl⟩
  | ok i =>
    rw [stepEvent_of_decoded hr hd] at h
    exact .inr ⟨i, rfl, h⟩

/-- The drawing loops read I modulo 4096 and RAM, nothing else of the state. -/
theorem Blit.rows_congr {s t : State} (hi : t.i.toNat % 4096 = s.i.toNat % 4096) (hm : t.mem = s.mem) (vx vy : Byte)
    (n : Nat) (d : Blit) : Blit.rows t vx vy n d = Blit.rows s vx vy n d := by
  have hread : ∀ r, t.memRead (t.ea r) = s.memRead (s.ea r) := by
    intro r
    unfold State.memRead State.ea
    rw [hm]
    congr 1
    omega
  induction n with
  | zero => rfl
  | succ n ih => rw [Blit.rows, Blit.rows, ih, hread]

end Sys2Proof.Machine

namespace Sys2Proof.Safety

open Sys2Proof.Machine

/-- An instruction that ends in `pc <- pc + 2`, whatever it wrote before. -/
theorem PcMoved.of_advance {s u : State} (h : u.pc = s.pc) : PcMoved 2 s u.advance := by
  intro _
  rw [State.advance_pc_toNat, h]
  omega

/-- A skip, whatever it tested. -/
theorem PcMoved.of_skipIf (s : State) (b : Bool) : PcMoved (if b then 4 else 2) s (s.skipIf b) := by
  intro _
  rw [State.skipIf_pc_toNat]
  omega

theorem SamePart.refl (p : Part) (s : State) : SamePart p s s := by
  cases p <;> simp [SamePart]

theorem Keeps.refl (parts : List Part) (regs : List Reg) (s : State) : Keeps parts regs s s :=
  ⟨fun p _ => SamePart.refl p s, fun _ _ => rfl⟩

/-- What keeps more than is asked keeps what is asked. -/
theorem Keeps.mono {parts parts' : List Part} {regs regs' : List Reg} {s t : State} (hp : ∀ p ∈ parts, p ∈ parts')
    (hr : ∀ r ∈ regs, r ∈ regs') (h : Keeps parts regs s t) : Keeps parts' regs' s t :=
  ⟨fun p hn => h.part p fun hm => hn (hp p hm), fun r hn => h.reg r fun hm => hn (hr r hm)⟩

/-- A frame about the state whose event has been taken off is one about the state before, but for the schedule. -/
theorem Keeps.of_schedule {parts : List Part} {regs : List Reg} {s t : State} {es : List Event}
    (h : Keeps parts regs { s with schedule := es } t) : Keeps (.schedule :: parts) regs s t := by
  refine ⟨fun p hn => ?_, h.reg⟩
  have hp := h.part p fun hm => hn (List.mem_cons_of_mem _ hm)
  cases p
  case schedule => exact absurd (List.mem_cons_self ..) hn
  all_goals exact hp

end Sys2Proof.Safety
end

