-- ==== Sys2Proof/Laws/PerInstr.lean ====
section
/-!
SUPPORT. Statements made per instruction, about the instruction as syntax. Family `MatchesRow`: the word the encoder
gives an instruction selects the instruction's own row of the opcode map (spec/30_encoding.md R95, R103): it carries
the row's fixed bits under the row's mask.
-/

namespace Sys2Proof.Laws

/-- The `mask` column of the opcode map (R95): by format, but for the whole-nibble opcodes. -/
def rowMask : Instr → Word
  | .sys _ => 0xF000#16
  | .cls => 0xFFFF#16
  | .ret => 0xFFFF#16
  | .jp _ => 0xF000#16
  | .call _ => 0xF000#16
  | .seImm _ _ => 0xF000#16
  | .sneImm _ _ => 0xF000#16
  | .seReg _ _ => 0xF00F#16
  | .ldImm _ _ => 0xF000#16
  | .addImm _ _ => 0xF000#16
  | .ldReg _ _ => 0xF00F#16
  | .orReg _ _ => 0xF00F#16
  | .andReg _ _ => 0xF00F#16
  | .xorReg _ _ => 0xF00F#16
  | .addReg _ _ => 0xF00F#16
  | .sub _ _ => 0xF00F#16
  | .shr _ _ => 0xF00F#16
  | .subn _ _ => 0xF00F#16
  | .shl _ _ => 0xF00F#16
  | .sneReg _ _ => 0xF00F#16
  | .ldI _ => 0xF000#16
  | .jpV0 _ => 0xF000#16
  | .rnd _ _ => 0xF000#16
  | .drw _ _ _ => 0xF000#16
  | .skp _ => 0xF0FF#16
  | .sknp _ => 0xF0FF#16
  | .ldVxDt _ => 0xF0FF#16
  | .ldVxK _ => 0xF0FF#16
  | .ldDtVx _ => 0xF0FF#16
  | .ldStVx _ => 0xF0FF#16
  | .addIVx _ => 0xF0FF#16
  | .ldFVx _ => 0xF0FF#16
  | .ldBVx _ => 0xF0FF#16
  | .ldMemVx _ => 0xF0FF#16
  | .ldVxMem _ => 0xF0FF#16

/-- The `match` column of the opcode map (R95). -/
def rowMatch : Instr → Word
  | .sys _ => 0x0000#16
  | .cls => 0x00E0#16
  | .ret => 0x00EE#16
  | .jp _ => 0x1000#16
  | .call _ => 0x2000#16
  | .seImm _ _ => 0x3000#16
  | .sneImm _ _ => 0x4000#16
  | .seReg _ _ => 0x5000#16
  | .ldImm _ _ => 0x6000#16
  | .addImm _ _ => 0x7000#16
  | .ldReg _ _ => 0x8000#16
  | .orReg _ _ => 0x8001#16
  | .andReg _ _ => 0x8002#16
  | .xorReg _ _ => 0x8003#16
  | .addReg _ _ => 0x8004#16
  | .sub _ _ => 0x8005#16
  | .shr _ _ => 0x8006#16
  | .subn _ _ => 0x8007#16
  | .shl _ _ => 0x800E#16
  | .sneReg _ _ => 0x9000#16
  | .ldI _ => 0xA000#16
  | .jpV0 _ => 0xB000#16
  | .rnd _ _ => 0xC000#16
  | .drw _ _ _ => 0xD000#16
  | .skp _ => 0xE09E#16
  | .sknp _ => 0xE0A1#16
  | .ldVxDt _ => 0xF007#16
  | .ldVxK _ => 0xF00A#16
  | .ldDtVx _ => 0xF015#16
  | .ldStVx _ => 0xF018#16
  | .addIVx _ => 0xF01E#16
  | .ldFVx _ => 0xF029#16
  | .ldBVx _ => 0xF033#16
  | .ldMemVx _ => 0xF055#16
  | .ldVxMem _ => 0xF065#16

/-! ### A layout under the masks of its format -/

theorem mask_formNnn (op : BitVec 4) (nnn : Addr12) : formNnn op nnn &&& 0xF000#16 = formNnn op 0#12 := by
  apply BitVec.eq_of_getLsbD_eq
  intro k hk
  simp only [BitVec.getLsbD_and, getLsbD_formNnn]
  interval_cases k <;> simp

theorem mask_formXkk (op : BitVec 4) (x : Reg) (kk : Byte) : formXkk op x kk &&& 0xF000#16 = formXkk op 0 0#8 := by
  apply BitVec.eq_of_getLsbD_eq
  intro k hk
  simp only [BitVec.getLsbD_and, getLsbD_formXkk]
  interval_cases k <;> simp [regBits]

theorem mask_formX (op : BitVec 4) (x : Reg) (kk : Byte) : formXkk op x kk &&& 0xF0FF#16 = formXkk op 0 kk := by
  apply BitVec.eq_of_getLsbD_eq
  intro k hk
  simp only [BitVec.getLsbD_and, getLsbD_formXkk]
  interval_cases k <;> simp [regBits]

theorem mask_formXyn (op : BitVec 4) (x y : Reg) (n : BitVec 4) :
    formXyn op x y n &&& 0xF000#16 = formXyn op 0 0 0#4 := by
  apply BitVec.eq_of_getLsbD_eq
  intro k hk
  simp only [BitVec.getLsbD_and, getLsbD_formXyn]
  interval_cases k <;> simp [regBits]

theorem mask_formXy (op : BitVec 4) (x y : Reg) (n : BitVec 4) :
    formXyn op x y n &&& 0xF00F#16 = formXyn op 0 0 n := by
  apply BitVec.eq_of_getLsbD_eq
  intro k hk
  simp only [BitVec.getLsbD_and, getLsbD_formXyn]
  interval_cases k <;> simp [regBits]

/-! ### The family -/

/-- The instruction's word selects the instruction's row (R103). -/
def MatchesRow.Statement (i : Instr) : Prop := encode i &&& rowMask i = rowMatch i

theorem MatchesRow.sys (nnn : Addr12) : MatchesRow.Statement (.sys nnn) :=
  (mask_formNnn _ _).trans rfl

theorem MatchesRow.cls : MatchesRow.Statement .cls :=
  rfl

theorem MatchesRow.ret : MatchesRow.Statement .ret :=
  rfl

theorem MatchesRow.jp (nnn : Addr12) : MatchesRow.Statement (.jp nnn) :=
  (mask_formNnn _ _).trans rfl

theorem MatchesRow.call (nnn : Addr12) : MatchesRow.Statement (.call nnn) :=
  (mask_formNnn _ _).trans rfl

theorem MatchesRow.seImm (x : Reg) (kk : Byte) : MatchesRow.Statement (.seImm x kk) :=
  (mask_formXkk _ _ _).trans rfl

theorem MatchesRow.sneImm (x : Reg) (kk : Byte) : MatchesRow.Statement (.sneImm x kk) :=
  (mask_formXkk _ _ _).trans rfl

theorem MatchesRow.seReg (x y : Reg) : MatchesRow.Statement (.seReg x y) :=
  (mask_formXy _ _ _ _).trans rfl

theorem MatchesRow.ldImm (x : Reg) (kk : Byte) : MatchesRow.Statement (.ldImm x kk) :=
  (mask_formXkk _ _ _).trans rfl

theorem MatchesRow.addImm (x : Reg) (kk : Byte) : MatchesRow.Statement (.addImm x kk) :=
  (mask_formXkk _ _ _).trans rfl

theorem MatchesRow.ldReg (x y : Reg) : MatchesRow.Statement (.ldReg x y) :=
  (mask_formXy _ _ _ _).trans rfl

theorem MatchesRow.orReg (x y : Reg) : MatchesRow.Statement (.orReg x y) :=
  (mask_formXy _ _ _ _).trans rfl

theorem MatchesRow.andReg (x y : Reg) : MatchesRow.Statement (.andReg x y) :=
  (mask_formXy _ _ _ _).trans rfl

theorem MatchesRow.xorReg (x y : Reg) : MatchesRow.Statement (.xorReg x y) :=
  (mask_formXy _ _ _ _).trans rfl

theorem MatchesRow.addReg (x y : Reg) : MatchesRow.Statement (.addReg x y) :=
  (mask_formXy _ _ _ _).trans rfl

theorem MatchesRow.sub (x y : Reg) : MatchesRow.Statement (.sub x y) :=
  (mask_formXy _ _ _ _).trans rfl

theorem MatchesRow.shr (x y : Reg) : MatchesRow.Statement (.shr x y) :=
  (mask_formXy _ _ _ _).trans rfl

theorem MatchesRow.subn (x y : Reg) : MatchesRow.Statement (.subn x y) :=
  (mask_formXy _ _ _ _).trans rfl

theorem MatchesRow.shl (x y : Reg) : MatchesRow.Statement (.shl x y) :=
  (mask_formXy _ _ _ _).trans rfl

theorem MatchesRow.sneReg (x y : Reg) : MatchesRow.Statement (.sneReg x y) :=
  (mask_formXy _ _ _ _).trans rfl

theorem MatchesRow.ldI (nnn : Addr12) : MatchesRow.Statement (.ldI nnn) :=
  (mask_formNnn _ _).trans rfl

theorem MatchesRow.jpV0 (nnn : Addr12) : MatchesRow.Statement (.jpV0 nnn) :=
  (mask_formNnn _ _).trans rfl

theorem MatchesRow.rnd (x : Reg) (kk : Byte) : MatchesRow.Statement (.rnd x kk) :=
  (mask_formXkk _ _ _).trans rfl

theorem MatchesRow.drw (x y : Reg) (n : Fin 16) : MatchesRow.Statement (.drw x y n) :=
  (mask_formXyn _ _ _ _).trans rfl

theorem MatchesRow.skp (x : Reg) : MatchesRow.Statement (.skp x) :=
  (mask_formX _ _ _).trans rfl

theorem MatchesRow.sknp (x : Reg) : MatchesRow.Statement (.sknp x) :=
  (mask_formX _ _ _).trans rfl

theorem MatchesRow.ldVxDt (x : Reg) : MatchesRow.Statement (.ldVxDt x) :=
  (mask_formX _ _ _).trans rfl

theorem MatchesRow.ldVxK (x : Reg) : MatchesRow.Statement (.ldVxK x) :=
  (mask_formX _ _ _).trans rfl

theorem MatchesRow.ldDtVx (x : Reg) : MatchesRow.Statement (.ldDtVx x) :=
  (mask_formX _ _ _).trans rfl

theorem MatchesRow.ldStVx (x : Reg) : MatchesRow.Statement (.ldStVx x) :=
  (mask_formX _ _ _).trans rfl

theorem MatchesRow.addIVx (x : Reg) : MatchesRow.Statement (.addIVx x) :=
  (mask_formX _ _ _).trans rfl

theorem MatchesRow.ldFVx (x : Reg) : MatchesRow.Statement (.ldFVx x) :=
  (mask_formX _ _ _).trans rfl

theorem MatchesRow.ldBVx (x : Reg) : MatchesRow.Statement (.ldBVx x) :=
  (mask_formX _ _ _).trans rfl

theorem MatchesRow.ldMemVx (x : Reg) : MatchesRow.Statement (.ldMemVx x) :=
  (mask_formX _ _ _).trans rfl

theorem MatchesRow.ldVxMem (x : Reg) : MatchesRow.Statement (.ldVxMem x) :=
  (mask_formX _ _ _).trans rfl

end Sys2Proof.Laws
end

