-- ==== Sys2Proof/Tests/Slice0.lean ====
section
/-!
SUPPORT. Tests of the model. Expected results are those of spec/95_test_vectors.md (the vector is named) or worked out
by hand from the rule named; none is the model's own answer. `test_hyp_<Name>` shows, for each statement with
hypotheses, concrete inputs that meet them together, clause by clause.
-/

namespace Sys2Proof.Tests

open Sys2Proof.Machine Sys2Proof.Safety

/-! ### Helpers -/

/-- The next state, if that is the answer. -/
def after : Result → Option State
  | .next t => some t
  | _ => none

/-- The state with some registers set. -/
def withRegs (regs : List (Reg × Byte)) (s : State) : State := regs.foldr (fun p t => t.setReg p.1 p.2) s

/-- The state with some bytes of RAM set, from an address upward. -/
def withBytes (a : Nat) (bytes : List Byte) (s : State) : State := s.storeImage a bytes

/-- The state after one step that fetches the word `w` at PC. -/
def run1 (w : Nat) (s : State) : Option State := after (step (s.withFetchWord 16 w))

/-- The state after one event of the host. -/
def event (e : Event) (s : State) : Option State := after (step { s with schedule := [e] })

/-- The columns of the pixels that are 1 in a row. -/
def lit (t : State) (row : Nat) : List Nat :=
  (List.range 64).filter fun c => Framebuffer.pixel t.fb (rowAt row) (colAt c)

/-- The reset state with pixels of row 0 lit, at the columns listed. -/
def litAtTop (cols : List Nat) (s : State) : State :=
  { s with fb := cols.foldr (fun c fb => Framebuffer.setPixel fb 0 (colAt c) true) s.fb }

/-- The state with I at 0x300 and a sprite there. -/
def withSprite (bytes : List Byte) (s : State) : State := withBytes 0x300 bytes { s with i := 0x0300#16 }

/-! ### WellFormed -/

/-- The word 0x00E0 is CLS (R94): SYS 0x0E0 is ill-formed. -/
theorem test_wellFormed_refuses_sys_0E0 : (Instr.sys 0x0E0#12).wellFormed = false := by decide

/-- The word 0x00EE is RET (R94): SYS 0x0EE is ill-formed. -/
theorem test_wellFormed_refuses_sys_0EE : (Instr.sys 0x0EE#12).wellFormed = false := by decide

theorem test_wellFormed_accepts_sys_0E1 : (Instr.sys 0x0E1#12).wellFormed = true := by decide

/-! ### Decoding, every constructor by a word written out from R92 and R95 -/

theorem test_decode_control :
    [decode 0b0000000100100011#16, decode 0x00EE#16, decode 0b0001101010111100#16, decode 0b0010001000000110#16] =
      [.ok (.sys 0x123#12), .ok .ret, .ok (.jp 0xABC#12), .ok (.call 0x206#12)] := by decide

theorem test_decode_skips :
    [decode 0b0011001100101010#16, decode 0b0100001100101011#16, decode 0b0101000100100000#16,
      decode 0b1001000100100000#16, decode 0b1011001100000000#16] =
      [.ok (.seImm 3 0x2A#8), .ok (.sneImm 3 0x2B#8), .ok (.seReg 1 2), .ok (.sneReg 1 2), .ok (.jpV0 0x300#12)] := by
  decide

theorem test_decode_immediates :
    [decode 0b0110101011111111#16, decode 0b0111000100000010#16, decode 0b1100001101111111#16] =
      [.ok (.ldImm 0xA 0xFF#8), .ok (.addImm 1 0x02#8), .ok (.rnd 3 0x7F#8)] := by decide

theorem test_decode_alu :
    [decode 0b1000101010110000#16, decode 0b1000101010110001#16, decode 0b1000101010110010#16,
      decode 0b1000101010110011#16, decode 0b1000101010110100#16] =
      [.ok (.ldReg 0xA 0xB), .ok (.orReg 0xA 0xB), .ok (.andReg 0xA 0xB), .ok (.xorReg 0xA 0xB),
        .ok (.addReg 0xA 0xB)] := by decide

theorem test_decode_alu_with_flag :
    [decode 0b1000101010110101#16, decode 0b1000101010110110#16, decode 0b1000101010110111#16,
      decode 0b1000101010111110#16] =
      [.ok (.sub 0xA 0xB), .ok (.shr 0xA 0xB), .ok (.subn 0xA 0xB), .ok (.shl 0xA 0xB)] := by decide

theorem test_decode_display :
    [decode 0x00E0#16, decode 0b1101100110100111#16] = [.ok .cls, .ok (.drw 0x9 0xA 0x7)] := by decide

theorem test_decode_keypad :
    [decode 0b1110110010011110#16, decode 0b1110110010100001#16, decode 0b1111000100001010#16] =
      [.ok (.skp 0xC), .ok (.sknp 0xC), .ok (.ldVxK 1)] := by decide

theorem test_decode_timer_index :
    [decode 0b1010000100100011#16, decode 0b1111001100000111#16, decode 0b1111001100010101#16,
      decode 0b1111001100011000#16, decode 0b1111001000011110#16, decode 0b1111010000101001#16] =
      [.ok (.ldI 0x123#12), .ok (.ldVxDt 3), .ok (.ldDtVx 3), .ok (.ldStVx 3), .ok (.addIVx 2), .ok (.ldFVx 4)] := by
  decide

theorem test_decode_memory :
    [decode 0b1111001100110011#16, decode 0b1111111001010101#16, decode 0b1111111001100101#16] =
      [.ok (.ldBVx 3), .ok (.ldMemVx 0xE), .ok (.ldVxMem 0xE)] := by decide

/-- V-DEC-3: near neighbours of CLS and RET are SYS. -/
theorem test_decode_sys_neighbours :
    [decode 0x0000#16, decode 0x00E1#16, decode 0x00C1#16, decode 0x0FFF#16] =
      [.ok (.sys 0#12), .ok (.sys 0x0E1#12), .ok (.sys 0x0C1#12), .ok (.sys 0xFFF#12)] := by decide

/-- V-DEC-10 and V-DEC-11: reserved words of the rows 8, 5 and 9. -/
theorem test_decode_reserved_registers :
    [decode 0x8008#16, decode 0x800D#16, decode 0x800F#16, decode 0x812F#16] = List.replicate 4 (.error .reserved8) ∧
      [decode 0x5121#16, decode 0x512F#16] = List.replicate 2 (.error .reserved5) ∧
      [decode 0x9121#16, decode 0x912F#16] = List.replicate 2 (.error .reserved9) := by decide

/-- V-DEC-12 and V-DEC-13: reserved words of the rows E and F. -/
theorem test_decode_reserved_E_and_F :
    [decode 0xE100#16, decode 0xE19F#16, decode 0xE1A0#16, decode 0xE1FF#16] = List.replicate 4 (.error .reservedE) ∧
      [decode 0xF100#16, decode 0xF108#16, decode 0xF134#16, decode 0xF175#16, decode 0xF1FF#16] =
        List.replicate 5 (.error .reservedF) := by decide

/-- The words of R95 for an instruction of each layout of R92. -/
theorem test_encode_layouts :
    [encode (.jp 0xABC#12), encode (.rnd 3 0x7F#8), encode (.drw 0x9 0xA 0x7), encode (.ldVxMem 0xE),
      encode (.seReg 1 2)] = [0x1ABC#16, 0xC37F#16, 0xD9A7#16, 0xFE65#16, 0x5120#16] := by decide

/-- Section 2.1: the bytes 12 34 are the word 0x1234, and the rest of the string is handed back. -/
theorem test_decodeBytes_high_byte_first :
    decodeBytes [0x12#8, 0x34#8, 0x56#8] = .ok (.jp 0x234#12, [0x56#8]) ∧
      decodeBytes [0x12#8] = .error .tooShort ∧ encodeBytes (.jp 0x234#12) = [0x12#8, 0x34#8] := by decide

/-- A table word of 16 bits, and the reserved word 8008. -/
theorem test_decodeTableWord :
    decodeTableWord 16 0x8AB4 = some (.addReg 0xA 0xB) ∧ decodeTableWord 16 0x8008 = none := by decide

/-! ### Control transfer (section 2.2) -/

/-- V-CTL-1. -/
theorem test_sys_advances :
    (run1 0x0123 (withRegs [(15, 0x55#8)] .reset)).map (fun t => (t.pc, t.reg 15)) = some (0x202#16, 0x55#8) := by decide

/-- V-CTL-9b: the return address 0x1000 is masked. -/
theorem test_ret_masks :
    (run1 0x00EE { State.reset with sp := 1#8, stack := State.reset.stack.set 0 0x0FFE#16, pc := 0x300#16 }).map
      (fun t => (t.pc, t.sp)) = some (0x000#16, 0#8) := by decide

/-- V-FLT-6. -/
theorem test_ret_underflow :
    (run1 0x00EE .reset).map (fun t => (t.fault, t.pc, t.sp)) = some (some .stackUnderflow, 0x200#16, 0#8) := by decide

/-- V-CTL-2. -/
theorem test_jp_self : (run1 0x1200 .reset).map (fun t => t.pc) = some 0x200#16 := by decide

/-- V-CTL-8: the address pushed is the CALL's own. -/
theorem test_call_pushes :
    (run1 0x2206 .reset).map (fun t => (t.stack[0], t.sp, t.pc)) = some (0x0200#16, 1#8, 0x206#16) := by decide

/-- V-FLT-7. -/
theorem test_call_overflow :
    (run1 0x2300 { State.reset with sp := 16#8 }).map (fun t => (t.fault, t.pc, t.sp)) =
      some (some .stackOverflow, 0x200#16, 16#8) := by decide

/-- V-CTL-3, V-CTL-3b. -/
theorem test_se_immediate :
    (run1 0x332A (withRegs [(3, 0x2A#8)] .reset)).map (fun t => t.pc) = some 0x204#16 ∧
      (run1 0x332B (withRegs [(3, 0x2A#8)] .reset)).map (fun t => t.pc) = some 0x202#16 := by decide

/-- V-CTL-4, V-CTL-4b. -/
theorem test_sne_immediate :
    (run1 0x432A (withRegs [(3, 0x2A#8)] .reset)).map (fun t => t.pc) = some 0x202#16 ∧
      (run1 0x432B (withRegs [(3, 0x2A#8)] .reset)).map (fun t => t.pc) = some 0x204#16 := by decide

/-- V-CTL-5, V-CTL-5b. -/
theorem test_se_registers :
    (run1 0x5120 (withRegs [(1, 7#8), (2, 7#8)] .reset)).map (fun t => t.pc) = some 0x204#16 ∧
      (run1 0x5120 (withRegs [(1, 7#8), (2, 8#8)] .reset)).map (fun t => t.pc) = some 0x202#16 := by decide

/-- V-CTL-6, V-CTL-6b. -/
theorem test_sne_registers :
    (run1 0x9120 (withRegs [(1, 7#8), (2, 8#8)] .reset)).map (fun t => t.pc) = some 0x204#16 ∧
      (run1 0x9120 (withRegs [(1, 7#8), (2, 7#8)] .reset)).map (fun t => t.pc) = some 0x202#16 := by decide

/-- V-CTL-7b: 0x10FE is masked. -/
theorem test_jpV0_masks : (run1 0xBFFF (withRegs [(0, 0xFF#8)] .reset)).map (fun t => t.pc) = some 0x0FE#16 := by decide

/-- V-CTL-7c: V0 is used, never V3, and an odd target is legal. -/
theorem test_jpV0_uses_V0 :
    (run1 0xB300 (withRegs [(0, 1#8), (3, 0x80#8)] .reset)).map (fun t => t.pc) = some 0x301#16 := by decide

/-- V-CTL-11: the fetch at 0xFFF takes its second byte from 0x000 (0xF0, default FONT). -/
theorem test_fetch_wraps :
    (after (step (withBytes 0xFFF [0x6A#8] { State.reset with pc := 0xFFF#16 }))).map (fun t => (t.reg 0xA, t.pc)) =
      some (0xF0#8, 0x001#16) := by decide

/-! ### ALU (sections 2.3 to 2.6) -/

/-- V-ALU-2: VF is an ordinary destination. -/
theorem test_ld_immediate : (run1 0x6F00 (withRegs [(15, 1#8)] .reset)).map (fun t => t.reg 15) = some 0#8 := by decide

/-- V-ALU-3: no flag on a wrap. -/
theorem test_add_immediate :
    (run1 0x7102 (withRegs [(1, 0xFF#8)] .reset)).map (fun t => (t.reg 1, t.reg 15)) = some (0x01#8, 0x00#8) := by decide

/-- The row a = 05, b = 02. -/
theorem test_ld_register :
    (run1 0x8120 (withRegs [(1, 0x05#8), (2, 0x02#8), (15, 0xEE#8)] .reset)).map (fun t => (t.reg 1, t.reg 15)) =
      some (0x02#8, 0xEE#8) := by decide

/-- The row a = 81, b = 0F. -/
theorem test_or :
    (run1 0x8121 (withRegs [(1, 0x81#8), (2, 0x0F#8), (15, 0xEE#8)] .reset)).map (fun t => (t.reg 1, t.reg 15)) =
      some (0x8F#8, 0xEE#8) := by decide

/-- The row a = 81, b = 0F. -/
theorem test_and :
    (run1 0x8122 (withRegs [(1, 0x81#8), (2, 0x0F#8), (15, 0xEE#8)] .reset)).map (fun t => (t.reg 1, t.reg 15)) =
      some (0x01#8, 0xEE#8) := by decide

/-- The row a = 81, b = 0F. -/
theorem test_xor :
    (run1 0x8123 (withRegs [(1, 0x81#8), (2, 0x0F#8), (15, 0xEE#8)] .reset)).map (fun t => (t.reg 1, t.reg 15)) =
      some (0x8E#8, 0xEE#8) := by decide

/-- The row a = 55, b = AA: 255 is no carry. -/
theorem test_add_no_carry_at_255 :
    (run1 0x8124 (withRegs [(1, 0x55#8), (2, 0xAA#8), (15, 0xEE#8)] .reset)).map (fun t => (t.reg 1, t.reg 15)) =
      some (0xFF#8, 0x00#8) := by decide

/-- 81F4: VF is read as the second operand before the flag is written. -/
theorem test_add_reads_VF_first :
    (run1 0x81F4 (withRegs [(1, 0xFF#8), (15, 0x01#8)] .reset)).map (fun t => (t.reg 1, t.reg 15)) =
      some (0x00#8, 0x01#8) := by decide

/-- The row a = 02, b = 05. -/
theorem test_sub_borrow :
    (run1 0x8125 (withRegs [(1, 0x02#8), (2, 0x05#8), (15, 0xEE#8)] .reset)).map (fun t => (t.reg 1, t.reg 15)) =
      some (0xFD#8, 0x00#8) := by decide

/-- 8F25 with equal operands: the flag remains, the result is lost. -/
theorem test_sub_into_VF : (run1 0x8F25 (withRegs [(15, 0x80#8), (2, 0x80#8)] .reset)).map (fun t => t.reg 15) = some 1#8 := by
  decide

/-- The row a = 81, b = 0F: Vy is ignored. -/
theorem test_shr :
    (run1 0x8126 (withRegs [(1, 0x81#8), (2, 0x0F#8), (15, 0xEE#8)] .reset)).map (fun t => (t.reg 1, t.reg 15)) =
      some (0x40#8, 0x01#8) := by decide

/-- The row a = 02, b = 05. -/
theorem test_subn :
    (run1 0x8127 (withRegs [(1, 0x02#8), (2, 0x05#8), (15, 0xEE#8)] .reset)).map (fun t => (t.reg 1, t.reg 15)) =
      some (0x03#8, 0x01#8) := by decide

/-- The row a = 07, b = 07: equal is no borrow. -/
theorem test_subn_equal :
    (run1 0x8127 (withRegs [(1, 0x07#8), (2, 0x07#8), (15, 0xEE#8)] .reset)).map (fun t => (t.reg 1, t.reg 15)) =
      some (0x00#8, 0x01#8) := by decide

/-- The row a = 81, b = 0F. -/
theorem test_shl :
    (run1 0x812E (withRegs [(1, 0x81#8), (2, 0x0F#8), (15, 0xEE#8)] .reset)).map (fun t => (t.reg 1, t.reg 15)) =
      some (0x02#8, 0x01#8) := by decide

/-- Section 2.6: VF is not written, PC goes on, one byte is drawn. The byte itself is free. -/
theorem test_rnd :
    (run1 0xC10F (withRegs [(15, 3#8)] .reset)).map (fun t => (t.reg 15, t.pc, t.draws)) = some (3#8, 0x202#16, 1) := by
  decide

/-! ### Display (section 2.7) -/

/-- V-CLS-1, with the pixel (4, 0). -/
theorem test_cls :
    (run1 0x00E0 (withRegs [(15, 9#8)] (litAtTop [4] .reset))).map (fun t => (lit t 0, t.reg 15, t.pc)) =
      some ([], 9#8, 0x202#16) := by decide

/-- V-DRW-4b: coordinates 255, 255 and both wraps. -/
theorem test_drw_wraps :
    (run1 0xD012 (withRegs [(0, 0xFF#8), (1, 0xFF#8)] (withSprite [0xFF#8, 0x81#8] .reset))).map
      (fun t => (lit t 31, lit t 0, t.reg 15)) = some ([0, 1, 2, 3, 4, 5, 6, 63], [6, 63], 0#8) := by decide

/-- V-DRW-7: the first draw. -/
theorem test_drw_collides :
    (run1 0xD011 (withSprite [0xC0#8] (litAtTop [0] .reset))).map (fun t => (lit t 0, t.reg 15)) = some ([1], 1#8) := by
  decide

/-! ### Keypad (section 2.8) -/

/-- V-KEY-5: only the low four bits of V1 select the key. -/
theorem test_skp :
    (run1 0xE19E (withRegs [(1, 0x17#8)] { State.reset with held := 0x0080#16 })).map (fun t => t.pc) =
      some 0x204#16 := by decide

/-- V-KEY-5b. -/
theorem test_sknp :
    (run1 0xE1A1 (withRegs [(1, 0x17#8)] { State.reset with held := 0x0080#16 })).map (fun t => t.pc) =
      some 0x202#16 := by decide

/-- S6 with the key already pressed. -/
theorem test_ldVxK_takes_the_edge :
    (run1 0xF10A { State.reset with held := 0x0080#16, edge := some 7 }).map
      (fun t => (t.reg 1, t.edge, t.pc, t.held)) = some (7#8, none, 0x202#16, 0x0080#16) := by decide

/-- S6 with no key pressed. -/
theorem test_ldVxK_waits : (run1 0xF10A .reset).map (fun t => (t.reg 1, t.pc)) = some (0#8, 0x200#16) := by decide

/-! ### Timer, index and memory (section 2.9) -/

/-- V-IDX-2. -/
theorem test_ldI : (run1 0xAFFF .reset).map (fun t => t.i) = some 0x0FFF#16 := by decide

/-- V-TMR-1. -/
theorem test_ldVxDt : (run1 0xF307 { State.reset with dt := 0x2A#8 }).map (fun t => (t.reg 3, t.dt)) = some (0x2A#8, 0x2A#8) := by
  decide

/-- V-TMR-2. -/
theorem test_ldDtVx : (run1 0xF315 (withRegs [(3, 0x3C#8)] .reset)).map (fun t => (t.dt, t.st)) = some (0x3C#8, 0#8) := by
  decide

/-- V-TMR-3. -/
theorem test_ldStVx : (run1 0xF318 (withRegs [(3, 2#8)] .reset)).map (fun t => (t.st, t.audioOn)) = some (2#8, true) := by
  decide

/-- V-IDX-4: I keeps all 16 bits, and there is no flag. -/
theorem test_addIVx_past_0FFF :
    (run1 0xF21E (withRegs [(2, 1#8)] { State.reset with i := 0x0FFF#16 })).map (fun t => (t.i, t.reg 15)) =
      some (0x1000#16, 0#8) := by decide

/-- V-IDX-5. -/
theorem test_addIVx_wraps :
    (run1 0xF21E (withRegs [(2, 2#8)] { State.reset with i := 0xFFFF#16 })).map (fun t => t.i) = some 0x0001#16 := by decide

/-- V-IDX-8: low four bits only. -/
theorem test_ldFVx : (run1 0xF429 (withRegs [(4, 0x1A#8)] .reset)).map (fun t => t.i) = some 0x0032#16 := by decide

/-- V-MEM-3: the address wrap overwrites the font's first byte. -/
theorem test_ldBVx_wraps :
    (run1 0xF333 (withRegs [(3, 0x6B#8)] { State.reset with i := 0x0FFE#16 })).map
      (fun t => ([t.memRead 0xFFE, t.memRead 0xFFF, t.memRead 0], t.i)) =
      some ([1#8, 0#8, 7#8], 0x0FFE#16) := by decide

/-- V-MEM-7, with V0..V3 alone set. -/
theorem test_ldMemVx_wraps :
    (run1 0xF355 (withRegs [(0, 0xA0#8), (1, 0xA1#8), (2, 0xA2#8), (3, 0xA3#8)] { State.reset with i := 0x0FFE#16 })).map
      (fun t => ([t.memRead 0xFFE, t.memRead 0xFFF, t.memRead 0, t.memRead 1], t.i)) =
      some ([0xA0#8, 0xA1#8, 0xA2#8, 0xA3#8], 0x0FFE#16) := by decide

/-- V-MEM-6: x = 0 stores one byte. -/
theorem test_ldMemVx_one :
    (run1 0xF055 (withRegs [(0, 0xA0#8), (1, 0xA1#8)] { State.reset with i := 0x0400#16 })).map
      (fun t => [t.memRead 0x400, t.memRead 0x401]) = some [0xA0#8, 0x00#8] := by decide

/-- V-MEM-8: the default glyph of digit 0. -/
theorem test_ldVxMem :
    (run1 0xF465 .reset).map (fun t => [t.reg 0, t.reg 1, t.reg 4, t.reg 5]) =
      some [0xF0#8, 0x90#8, 0xF0#8, 0x00#8] := by decide

/-- V-MEM-8b: the instruction's own bytes. -/
theorem test_ldVxMem_self :
    (run1 0xF265 { State.reset with i := 0x01FF#16 }).map (fun t => [t.reg 0, t.reg 1, t.reg 2, t.reg 3]) =
      some [0x00#8, 0xF2#8, 0x65#8, 0x00#8] := by decide

/-! ### Faults and events (sections 2.10, 2.11) -/

/-- V-FLT-4: no skip, and PC stays. -/
theorem test_reserved_word_faults :
    (run1 0x5121 (withRegs [(1, 7#8), (2, 7#8)] .reset)).map (fun t => (t.fault, t.pc, t.faultCode)) =
      some (some .decodeFault, 0x200#16, 1) := by decide

/-- V-FLT-8. -/
theorem test_halted_step :
    (after (step { State.reset with fault := some .decodeFault })) = some { State.reset with fault := some .decodeFault } := by
  decide

/-- V-FLT-9: timers and keys go on in the halt. -/
theorem test_halted_tick :
    (event .tick60 { State.reset with fault := some .decodeFault, dt := 3#8, st := 1#8 }).map
      (fun t => (t.dt, t.st, t.audioOn, t.faultCode)) = some (2#8, 0#8, false, 1) := by decide

/-- V-EVT-4: the later press is the edge. -/
theorem test_keyDown :
    ((event (.keyDown 0xF) .reset).bind (event (.keyDown 0))).map (fun t => (t.held, t.edge)) =
      some (0x8001#16, some 0) := by decide

/-- V-EVT-6: a release does not clear the edge. -/
theorem test_keyUp :
    (event (.keyUp 5) { State.reset with held := 0x0020#16, edge := some 5 }).map (fun t => (t.held, t.edge)) =
      some (0#16, some 5) := by decide

/-- V-EVT-11, in part: what LOAD keeps and what it clears. -/
theorem test_load :
    (event (.load [0x12#8, 0x00#8]) (withBytes 0x300 [0x77#8] { State.reset with dt := 7#8, fault := some .decodeFault })).map
      (fun t => ([t.memRead 0x200, t.memRead 0x201, t.memRead 0x300], t.dt, t.fault)) =
      some ([0x12#8, 0x00#8, 0x77#8], 0#8, none) := by decide

/-- V-FLT-11. -/
theorem test_reset_event : event .reset { State.reset with fault := some .stackUnderflow, i := 5#16 } = some .reset := by decide

/-! ### The statements' hypotheses can be met

Each conjunct is one clause's hypotheses, at a boundary value where the clause has a range. -/

/-- The reset state with the return address 0x0202 in every slot and SP at `n`. -/
def atDepth (n : Byte) : State := { State.reset with sp := n, stack := Vector.replicate 16 0x0202#16 }

/-- The reset state, its next event a STEP, with the word of two bytes at PC. -/
def aboutTo (hi lo : Byte) : State := withBytes 0x200 [hi, lo] .reset

/-- The state with the events still to come. -/
def scheduled (es : List Event) (s : State) : State := { s with schedule := es }

/-- The premise of `PcMoved n`, the highest PC from which a skip stays in the address space. -/
theorem test_hyp_PcMoved : State.reset.pc.toNat + 2 < 4096 ∧ { State.reset with pc := 0xFFB#16 }.pc.toNat + 4 < 4096 := by
  decide

theorem test_hyp_DecodeOfEncodeIsTheInstruction :
    (Instr.sys 0x0E1#12).wellFormed = true ∧ (Instr.drw 15 15 15).wellFormed = true := by decide

theorem test_hyp_EncodeOfDecodeIsTheWord : decode 0x00EF#16 = .ok (.sys 0x0EF#12) := by decide

theorem test_hyp_StepRunsTheDecodedInstruction :
    ((aboutTo 0x8A#8 0xB4#8).fault = none ∧ decode (aboutTo 0x8A#8 0xB4#8).fetchWord = .ok (.addReg 0xA 0xB) ∧
      (aboutTo 0x8A#8 0xB4#8).schedule = []) ∧
    ((scheduled [.step, .tick60] .reset).fault = none ∧
      decode (scheduled [.step, .tick60] .reset).fetchWord = .ok (.sys 0#12) ∧
      (scheduled [.step, .tick60] .reset).schedule = .step :: [.tick60]) := by decide

theorem test_hyp_PlacedWordIsExecutedNext : decodeTableWord 16 0xFE65 = some (.ldVxMem 0xE) := by decide

theorem test_hyp_HaltedCoreExecutesNothing :
    ((State.reset.raise .decodeFault).fault = some .decodeFault ∧ (State.reset.raise .decodeFault).schedule = []) ∧
    ((scheduled [.step] (State.reset.raise .stackOverflow)).fault = some .stackOverflow ∧
      (scheduled [.step] (State.reset.raise .stackOverflow)).schedule = .step :: []) := by decide

theorem test_hyp_ReservedWordRaisesDecodeFault :
    Running (aboutTo 0x91#8 0x2F#8) ∧ (aboutTo 0x91#8 0x2F#8).takeEvent.1 = .step ∧
      ReservedWord (aboutTo 0x91#8 0x2F#8).fetchWord := by
  unfold Running ReservedWord
  decide

/-- A fault of each kind: the reserved word F1FF, RET at SP = 0, CALL at SP = 16. -/
theorem test_hyp_FaultsHaveThreeCausesAndArePrecise :
    (Running (aboutTo 0xF1#8 0xFF#8) ∧
      step (aboutTo 0xF1#8 0xFF#8) = .next ((aboutTo 0xF1#8 0xFF#8).raise .decodeFault)) ∧
    (Running (aboutTo 0x00#8 0xEE#8) ∧
      step (aboutTo 0x00#8 0xEE#8) = .next ((aboutTo 0x00#8 0xEE#8).raise .stackUnderflow)) ∧
    (Running ((atDepth 16#8).withFetchWord 16 0x2300) ∧ step ((atDepth 16#8).withFetchWord 16 0x2300) =
      .next (((atDepth 16#8).withFetchWord 16 0x2300).raise .stackOverflow)) :=
  ⟨⟨rfl, rfl⟩, ⟨rfl, rfl⟩, ⟨rfl, rfl⟩⟩

theorem test_hyp_HaltIsLeftOnlyByResetOrLoad :
    (State.reset.raise .decodeFault).fault = some .decodeFault ∧ ¬ Initialises (State.reset.raise .decodeFault) ∧
      step (State.reset.raise .decodeFault) = .next (State.reset.raise .decodeFault) :=
  ⟨rfl, (by rintro (h | ⟨rom, h⟩) <;> cases h), rfl⟩

/-- With both timers at the ends of their range. -/
theorem test_hyp_TickCountsBothTimersDown :
    (scheduled [.tick60] { State.reset with dt := 255#8 }).schedule = .tick60 :: [] := by decide

/-- The key is up; the key is held. -/
theorem test_hyp_KeyDownRecordsAnEdgeFromUpToDown :
    ((scheduled [.keyDown 15] .reset).schedule = .keyDown 15 :: [] ∧
      (scheduled [.keyDown 15] .reset).held.getLsbD 15 = false) ∧
    ((scheduled [.keyDown 15] { State.reset with held := 0x8000#16 }).schedule = .keyDown 15 :: [] ∧
      (scheduled [.keyDown 15] { State.reset with held := 0x8000#16 }).held.getLsbD 15 = true) := by decide

theorem test_hyp_KeyUpReleasesTheKeyAndKeepsTheEdge :
    (scheduled [.keyUp 0, .step] .reset).schedule = .keyUp 0 :: [.step] := by decide

/-- The longest image and the empty one, with a byte of the image and bytes outside it. -/
theorem test_hyp_LoadCopiesTheImageAndClearsTheRest :
    ((scheduled [.load (List.replicate 3584 0xFF#8)] .reset).schedule = .load (List.replicate 3584 0xFF#8) :: [] ∧
      (List.replicate 3584 0xFF#8).length ≤ 3584 ∧ 3583 < (List.replicate 3584 0xFF#8).length ∧
      0x1FF % 4096 < 0x200) ∧
    ((scheduled [.load []] .reset).schedule = .load [] :: [] ∧ ([] : List Byte).length ≤ 3584 ∧
      0x200 + ([] : List Byte).length ≤ 0x200 % 4096) :=
  ⟨⟨rfl, by rw [List.length_replicate], by rw [List.length_replicate]; decide, by decide⟩, rfl, by decide, by decide⟩

theorem test_hyp_OversizeLoadChangesNothing :
    (scheduled [.load (List.replicate 3585 0#8)] .reset).schedule = .load (List.replicate 3585 0#8) :: [] ∧
      3584 < (List.replicate 3585 0#8).length :=
  ⟨rfl, by rw [List.length_replicate]; decide⟩

theorem test_hyp_ResetRestoresEveryPieceOfState :
    (scheduled [.reset] (State.reset.raise .stackOverflow)).schedule = .reset :: [] := by decide

/-- The tone comes on with Fx18; it goes off with TICK60 at ST = 1, with Fx18 of 0, and with RESET. -/
theorem test_hyp_AudioFollowsTheSoundTimer :
    (∃ s t, step s = .next t ∧ s.audioOn = false ∧ t.audioOn = true) ∧
    (∃ s t, step s = .next t ∧ s.audioOn = true ∧ t.audioOn = false ∧ s.takeEvent.1 = .tick60 ∧ s.st.toNat = 1) ∧
    (∃ s t, step s = .next t ∧ s.audioOn = true ∧ t.audioOn = false ∧ Executes s (.ldStVx 3)) ∧
    (∃ s t, step s = .next t ∧ s.audioOn = true ∧ t.audioOn = false ∧ Initialises s) :=
  ⟨⟨(withRegs [(3, 1#8)] .reset).withFetchWord 16 0xF318, _, rfl, rfl, rfl⟩,
    ⟨scheduled [.tick60] { State.reset with st := 1#8 }, _, rfl, rfl, rfl, rfl, rfl⟩,
    ⟨State.withFetchWord { State.reset with st := 5#8 } 16 0xF318, _, rfl, rfl, rfl, rfl, (rfl : _ = none), rfl⟩,
    ⟨scheduled [.reset] { State.reset with st := 5#8 }, _, rfl, rfl, rfl, .inl rfl⟩⟩

/-- A run of two events, a tick and an instruction that sets the other timer, for each half. -/
theorem test_hyp_TimersCountTheTicksOfARun :
    (∃ s t, Run (fun u => ¬ Initialises u ∧ ∀ x, ¬ Executes u (.ldDtVx x)) s [.tick60, .step] t) ∧
    (∃ s t, Run (fun u => ¬ Initialises u ∧ ∀ x, ¬ Executes u (.ldStVx x)) s [.tick60, .step] t) := by
  constructor
  · refine ⟨scheduled [.tick60] ({ State.reset with dt := 9#8 }.withFetchWord 16 0xF318), _,
      .more (u := (({ State.reset with dt := 9#8 }.withFetchWord 16 0xF318)).doTick) ⟨?_, ?_⟩ rfl
        (.more ⟨?_, ?_⟩ rfl (.done _))⟩
    · rintro (h | ⟨rom, h⟩) <;> cases h
    · rintro x ⟨h, -, -⟩; cases h
    · rintro (h | ⟨rom, h⟩) <;> cases h
    · rintro x ⟨-, -, h⟩; cases h
  · refine ⟨scheduled [.tick60] ({ State.reset with st := 9#8 }.withFetchWord 16 0xF315), _,
      .more (u := (({ State.reset with st := 9#8 }.withFetchWord 16 0xF315)).doTick) ⟨?_, ?_⟩ rfl
        (.more ⟨?_, ?_⟩ rfl (.done _))⟩
    · rintro (h | ⟨rom, h⟩) <;> cases h
    · rintro x ⟨h, -, -⟩; cases h
    · rintro (h | ⟨rom, h⟩) <;> cases h
    · rintro x ⟨-, -, h⟩; cases h

/-- SP at both ends of each clause's range. -/
theorem test_hyp_ReturnPopsTheCallAddressOrUnderflows :
    (0 < (atDepth 1#8).sp.toNat ∧ (atDepth 1#8).sp.toNat ≤ 16) ∧
    (0 < (atDepth 16#8).sp.toNat ∧ (atDepth 16#8).sp.toNat ≤ 16) ∧ (atDepth 0#8).sp.toNat = 0 := by decide

theorem test_hyp_JumpGoesToTheAddress : (0x200#12).toNat = State.reset.pc.toNat := by decide

theorem test_hyp_CallPushesItsAddressOrOverflows :
    (atDepth 0#8).sp.toNat < 16 ∧ (atDepth 15#8).sp.toNat < 16 ∧ (atDepth 16#8).sp.toNat = 16 := by decide

theorem test_hyp_CallThenReturnContinuesAfterTheCall : (atDepth 15#8).sp.toNat < 16 := by decide

theorem test_hyp_CallAndReturnStopWithoutAStackSlot : 16 < (atDepth 17#8).sp.toNat := by decide

theorem test_hyp_SkipsCompareTwoRegisters :
    (15 : Reg) = 15 ∧ (∃ t, exec (.seReg 15 15) .reset = .next t) ∧ ∃ t, exec (.sneReg 15 15) .reset = .next t :=
  ⟨rfl, ⟨_, rfl⟩, ⟨_, rfl⟩⟩

theorem test_hyp_AddSetsCarry : (14 : Reg) ≠ Reg.vf := by decide

theorem test_hyp_SubtractionsSetNoBorrow : (0 : Reg) ≠ Reg.vf := by decide

theorem test_hyp_ShiftsMoveOneBitIntoVF : (14 : Reg) ≠ Reg.vf := by decide

theorem test_hyp_RandomIsMaskedByTheImmediate : (0x00#8 : Byte) = 0x00#8 ∧ (0xFF#8 : Byte) = 0xFF#8 := by decide

/-- ADD, which has a flag; LD VF, kk, which changes VF as its destination. -/
theorem test_hyp_FlagIsWrittenOnlyByFlagInstructions :
    (∃ t, exec (.addReg 1 2) .reset = .next t ∧ writesFlag (.addReg 1 2) = true) ∧
    (∃ t, exec (.ldImm 15 9#8) .reset = .next t ∧ writesFlag (.ldImm 15 9#8) = false ∧
      t.reg Reg.vf ≠ State.reset.reg Reg.vf) :=
  ⟨⟨_, rfl, rfl⟩, ⟨_, rfl, rfl, by decide⟩⟩

theorem test_hyp_DrawFlipsThePixelsUnderTheSprite : 14 < (15 : Fin 16).val ∧ 7 < 8 := by decide

theorem test_hyp_DrawingTwiceRestoresTheFramebuffer : (0 : Reg) ≠ Reg.vf ∧ (14 : Reg) ≠ Reg.vf := by decide

/-- No edge; the edge of the first key and of the last. -/
theorem test_hyp_WaitForKeyRepeatsOrTakesTheEdge :
    State.reset.edge = none ∧ { State.reset with edge := some 0 }.edge = some 0 ∧
      { State.reset with edge := some 15 }.edge = some 15 := by decide

/-- The three bytes at 0xFFE, 0xFFF and 0x000, and their neighbours on both sides. -/
theorem test_hyp_BcdStoresThreeDigits :
    [0xFFD, 0x001].all (fun a => [0, 1, 2].all fun k => a % 4096 != { State.reset with i := 0x1FFE#16 }.ea k) = true := by
  decide

theorem test_hyp_StoreRegistersWritesV0ToVx :
    (15 : Reg) ≤ 15 ∧ ∀ r : Reg, r ≤ 15 → 0x30F % 4096 ≠ { State.reset with i := 0x0310#16 }.ea r.val := by decide

theorem test_hyp_LoadRegistersReadsV0ToVx : (14 : Reg) ≤ 14 ∧ (14 : Reg) < 15 := by decide

/-- In between, V0 and V1 are overwritten. -/
theorem test_hyp_StoreThenLoadRestoresTheRegisters :
    ∃ t u v, exec (.ldMemVx 1) (withRegs [(0, 7#8), (1, 8#8)] { State.reset with i := 0x0FFF#16 }) = .next t ∧
      u = withRegs [(0, 1#8), (1, 2#8)] t ∧ u.i = 0x0FFF#16 ∧
      (∀ r : Reg, r ≤ 1 → u.memRead (0x0FFF + r.val) = t.memRead (0x0FFF + r.val)) ∧
      exec (.ldVxMem 1) u = .next v :=
  ⟨_, _, _, rfl, rfl, rfl, fun _ _ => rfl, rfl⟩

/-- The invariant holds at its limits: PC and a slot at 0xFFF, SP at 16, a cell listed at address 0xFFF. -/
theorem test_hyp_EveryEventKeepsTheInvariant :
    Inv { State.reset with pc := 0xFFF#16, sp := 16#8, stack := Vector.replicate 16 0xFFF#16, mem := [(0xFFF, 1#8)] } :=
  ⟨by decide, by decide, by decide, by decide⟩

theorem test_hyp_InstructionsWriteOnlyTheirState : ∃ t, exec (.drw 0 1 15) .reset = .next t := ⟨_, rfl⟩

/-- A next state that runs, from the highest PC, and one that has faulted. -/
theorem test_hyp_EveryInstructionLeavesPcWhereTheTableSays :
    (∃ s t, s.pc.toNat = 4095 ∧ Running s ∧ exec (.seImm 0 0#8) s = .next t ∧ Running t) ∧
    (∃ s t, s.pc.toNat < 4096 ∧ Running s ∧ exec .ret s = .next t ∧ ¬ Running t) :=
  ⟨⟨{ State.reset with pc := 0xFFF#16 }, _, rfl, rfl, rfl, rfl⟩,
    ⟨.reset, _, by decide, rfl, rfl, by unfold Running; decide⟩⟩

/-- CALL to an even address with even return addresses below SP; and Bnnn with an even sum. -/
theorem test_hyp_EvenTargetsKeepPcEven :
    (∃ t, exec (.call 0x300#12) (atDepth 15#8) = .next t) ∧ (atDepth 15#8).pc.toNat % 2 = 0 ∧
      (∀ k : Fin 16, k.val < (atDepth 15#8).sp.toNat → ((atDepth 15#8).stack[k.val]).toNat % 2 = 0) ∧
      (0x300#12).toNat % 2 = 0 ∧
      (∃ t, exec (.jpV0 0xFFF#12) (withRegs [(0, 1#8)] .reset) = .next t) ∧
      ((0xFFF#12).toNat + ((withRegs [(0, 1#8)] .reset).reg 0).toNat) % 2 = 0 :=
  ⟨⟨_, rfl⟩, by decide, by decide, by decide, ⟨_, rfl⟩, by decide⟩

theorem test_hyp_SoundTimerIsNeverRead :
    SameButSt .reset { State.reset with st := 1#8 } ∧ State.reset ≠ { State.reset with st := 1#8 } :=
  ⟨rfl, by decide⟩

theorem test_hyp_UpperBitsOfIndexAreUnobservable :
    SameButHighI .reset { State.reset with i := 0xF000#16 } ∧ State.reset ≠ { State.reset with i := 0xF000#16 } :=
  ⟨⟨rfl, rfl⟩, by decide⟩

theorem test_hyp_DeadStackSlotsAreUnobservable :
    SameButDeadSlots .reset (atDepth 0#8) ∧ State.reset ≠ atDepth 0#8 :=
  ⟨⟨rfl, fun k hk => absurd hk (Nat.not_lt_zero k.val)⟩, by decide⟩

/-- V-CTL-2's jump to itself, with a TICK60 next and with a STEP next. -/
theorem test_hyp_FinishedProgramStaysFinished :
    (Finished (scheduled [.tick60] (aboutTo 0x12#8 0x00#8)) ∧
      ¬ Initialises (scheduled [.tick60] (aboutTo 0x12#8 0x00#8))) ∧
    (Finished (aboutTo 0x12#8 0x00#8) ∧ ¬ Initialises (aboutTo 0x12#8 0x00#8) ∧
      (aboutTo 0x12#8 0x00#8).takeEvent.1 = .step) :=
  ⟨⟨⟨rfl, 0x200#12, rfl, rfl⟩, by rintro (h | ⟨rom, h⟩) <;> cases h⟩,
    ⟨rfl, 0x200#12, rfl, rfl⟩, (by rintro (h | ⟨rom, h⟩) <;> cases h), rfl⟩

/-- R123: a jump to another address is no end. -/
theorem test_jump_away_is_not_finished : ¬ Finished (aboutTo 0x12#8 0x02#8) := by
  rintro ⟨-, nnn, hd, hn⟩
  have h : decode (aboutTo 0x12#8 0x02#8).fetchWord = .ok (.jp 0x202#12) := by decide
  rw [h] at hd
  cases hd
  exact absurd hn (by decide)

/-- One STEP with a TICK60 before it is the end after one STEP. -/
theorem test_finished_after_one_step :
    ∃ t, FinishedAfter 1 (scheduled [.tick60] (aboutTo 0x12#8 0x00#8)) t ∧ Finished t :=
  ⟨aboutTo 0x12#8 0x00#8, ⟨[.tick60, .step], .more (u := aboutTo 0x12#8 0x00#8) rfl rfl (.more rfl rfl (.done _)), rfl, rfl⟩,
    rfl, 0x200#12, rfl, rfl⟩

end Sys2Proof.Tests
end

/-! ## The family of spec/20_memory.md -/

namespace Sys2Proof.Proofs
open Sys2Proof Sys2Proof.Machine

/-- Settles O5: joining two bytes adds 256 times the high one to the low one, and a read at `pc + 1` is one at
`(pc + 1) % 4096`, since memory wraps (R64). -/
theorem fetchReadsTwoBytesBigEndian : Obligations.FetchReadsTwoBytesBigEndian := by
  unfold Obligations.FetchReadsTwoBytesBigEndian
  intro s
  calc s.fetchWord.toNat
      = 256 * (s.memRead s.pc.toNat).toNat + (s.memRead (s.pc.toNat + 1)).toNat := wordOfBytes_toNat _ _
    _ = 256 * (s.memRead s.pc.toNat).toNat + (s.memRead ((s.pc.toNat + 1) % 4096)).toNat := by
      rw [State.memRead_mod]

end Sys2Proof.Proofs

/-! ## The family of spec/40_control.md -/

namespace Sys2Proof.Safety
open Sys2Proof.Machine

/-- PC is none of the parts of a frame. -/
theorem SamePart.setPc {p : Part} {s t : State} (n : Nat) (h : SamePart p s t) : SamePart p s (t.setPc n) := by
  cases p <;> exact h

/-- Writing PC keeps the frame; `State.advance` and `State.skipIf` are such writes. -/
theorem Keeps.setPc {parts : List Part} {regs : List Reg} {s t : State} (n : Nat) (h : Keeps parts regs s t) :
    Keeps parts regs s (t.setPc n) :=
  ⟨fun p hp => (h.part p hp).setPc n, h.reg⟩

/-- The predicate of SE (R125): skip when the two bytes are equal. -/
theorem PcMoved.of_skipIf_beq (s : State) (a b : Byte) : PcMoved (if a = b then 4 else 2) s (s.skipIf (a == b)) := by
  simpa only [beq_iff_eq] using PcMoved.of_skipIf s (a == b)

/-- The predicate of SNE (R126): skip when the two bytes differ. -/
theorem PcMoved.of_skipIf_bne (s : State) (a b : Byte) : PcMoved (if a = b then 2 else 4) s (s.skipIf (a != b)) := by
  simpa only [bne_iff_ne, ite_not] using PcMoved.of_skipIf s (a != b)

end Sys2Proof.Safety

namespace Sys2Proof.Machine

/-- Writing PC the 12-bit address it already holds changes nothing. -/
theorem State.setPc_self {s : State} (h : s.pc.toNat < 4096) : s.setPc s.pc.toNat = s := by
  simp only [State.setPc, Nat.mod_eq_of_lt h, BitVec.ofNat_toNat, BitVec.setWidth_eq]

end Sys2Proof.Machine

namespace Sys2Proof.Proofs
open Sys2Proof Sys2Proof.Machine Sys2Proof.Safety

/-- Settles O21: SYS answers `s.advance`, a write of PC alone (R121). -/
theorem sysOnlyAdvances : Obligations.SysOnlyAdvances := by
  unfold Obligations.SysOnlyAdvances
  intro _ s
  exact ⟨s.advance, rfl, .of_advance rfl, (Keeps.refl [] [] s).setPc _⟩

/-- Settles O23: JP writes nnn to PC, and a 12-bit nnn is below 4096, so the reduction to 12 bits keeps it (R123). -/
theorem jumpGoesToTheAddress : Obligations.JumpGoesToTheAddress := by
  unfold Obligations.JumpGoesToTheAddress
  intro nnn s
  have hlt : nnn.toNat < 4096 := nnn.isLt
  refine ⟨⟨s.setPc nnn.toNat, rfl, ?_, (Keeps.refl [] [] s).setPc _⟩, fun hself => ?_⟩
  · rw [State.setPc_pc_toNat, Nat.mod_eq_of_lt hlt]
  · calc exec (.jp nnn) s
        = .next (s.setPc s.pc.toNat) := by rw [← hself]; rfl
      _ = .next s := by rw [State.setPc_self (hself ▸ hlt)]

/-- Settles O27: both skips write PC alone, SE on equality (R125) and SNE on difference (R126). -/
theorem skipsCompareWithTheImmediate : Obligations.SkipsCompareWithTheImmediate := by
  unfold Obligations.SkipsCompareWithTheImmediate
  intro x kk s
  constructor
  · exact ⟨s.skipIf (s.reg x == kk), rfl, .of_skipIf_beq s _ _, (Keeps.refl [] [] s).setPc _⟩
  · exact ⟨s.skipIf (s.reg x != kk), rfl, .of_skipIf_bne s _ _, (Keeps.refl [] [] s).setPc _⟩

end Sys2Proof.Proofs

/-! ## The family of spec/41_alu.md -/

namespace Sys2Proof.Machine

/-! ### The flag write (R150) -/

@[simp] theorem State.reg_vf_setResultAndFlag (s : State) (x : Reg) (a f : Byte) :
    (s.setResultAndFlag x a f).reg Reg.vf = f := by
  rw [State.reg_setResultAndFlag, if_pos rfl]

theorem State.reg_setResultAndFlag_of_ne_vf (s : State) {x : Reg} (a f : Byte) (hx : x ≠ Reg.vf) :
    (s.setResultAndFlag x a f).reg x = a := by
  rw [State.reg_setResultAndFlag, if_neg hx, if_pos rfl]

/-! ### The flags as arithmetic -/

theorem flagByte_decide (p : Prop) [Decidable p] : flagByte (decide p) = if p then 1#8 else 0#8 := by
  simp only [flagByte, decide_eq_true_eq]

theorem carryFlag_eq (a b : Byte) : carryFlag a b = if 255 < a.toNat + b.toNat then 1#8 else 0#8 :=
  flagByte_decide _

theorem noBorrowFlag_eq (a b : Byte) : noBorrowFlag a b = if b.toNat ≤ a.toNat then 1#8 else 0#8 :=
  flagByte_decide _

theorem lowBitFlag_toNat (a : Byte) : (lowBitFlag a).toNat = a.toNat % 2 := by
  rw [lowBitFlag, BitVec.toNat_and]
  exact Nat.and_one_is_mod _

/-- Bit 7 is the last one of a byte, so nothing is left of it for R161's mask to clear. -/
theorem highBitFlag_toNat (a : Byte) : (highBitFlag a).toNat = a.toNat / 128 := by
  have hlt : a.toNat < 256 := a.isLt
  calc (highBitFlag a).toNat
      = (lowBitFlag (a >>> 7)).toNat := rfl
    _ = a.toNat / 128 % 2 := by rw [lowBitFlag_toNat, BitVec.toNat_ushiftRight, Nat.shiftRight_eq_div_pow]
    _ = a.toNat / 128 := by omega

/-! ### The results as arithmetic (R162) -/

/-- Subtraction modulo 256 as R158 writes it: 256 is added so that nothing is truncated. -/
theorem sub_toNat (a b : Byte) : (a - b).toNat = (a.toNat + 256 - b.toNat) % 256 := by
  have hlt : b.toNat < 256 := b.isLt
  rw [BitVec.toNat_sub]
  omega

theorem shiftRight_one_toNat (a : Byte) : (a >>> 1).toNat = a.toNat / 2 := by
  rw [BitVec.toNat_ushiftRight, Nat.shiftRight_eq_div_pow, pow_one]

theorem shiftLeft_one_toNat (a : Byte) : (a <<< 1).toNat = 2 * a.toNat % 256 := by
  rw [BitVec.toNat_shiftLeft, Nat.shiftLeft_eq, pow_one, mul_comm]

end Sys2Proof.Machine

namespace Sys2Proof.Safety
open Sys2Proof.Machine

/-- The V registers are none of the parts of a frame. -/
theorem SamePart.setReg {p : Part} {s t : State} (r : Reg) (b : Byte) (h : SamePart p s t) :
    SamePart p s (t.setReg r b) := by
  cases p <;> exact h

/-- Writing a register the frame leaves out keeps the frame. -/
theorem Keeps.setReg {parts : List Part} {regs : List Reg} {s t : State} {r : Reg} (b : Byte) (hr : r ∈ regs)
    (h : Keeps parts regs s t) : Keeps parts regs s (t.setReg r b) := by
  refine ⟨fun p hp => (h.part p hp).setReg r b, fun q hq => ?_⟩
  have hne : q ≠ r := fun e => hq (e ▸ hr)
  rw [State.reg_setReg_of_ne t b hne, h.reg q hq]

/-- The frame of an instruction that writes Vx and no flag. -/
theorem Keeps.of_setReg_advance (s : State) (x : Reg) (b : Byte) : Keeps [] [x] s (s.setReg x b).advance :=
  ((Keeps.refl _ _ s).setReg b (by simp)).setPc _

/-- The frame of an instruction that writes Vx and then the flag. -/
theorem Keeps.of_setResultAndFlag_advance (s : State) (x : Reg) (a f : Byte) :
    Keeps [] [x, Reg.vf] s (s.setResultAndFlag x a f).advance :=
  (((Keeps.refl _ _ s).setReg a (by simp)).setReg f (by simp)).setPc _

/-- R150 and R25 for the five instructions with a flag: the flag in VF, the result in Vx unless x = 15, PC moved by 2
and everything else kept. `F` and `R` say what the flag and the result are. -/
theorem flag_instruction {i : Instr} {s : State} {x : Reg} {a f : Byte} {F R : Byte → Prop}
    (hexec : exec i s = .next (s.setResultAndFlag x a f).advance) (hflag : F f) (hresult : R a) :
    ∃ t, exec i s = .next t ∧ F (t.reg Reg.vf) ∧ (x ≠ Reg.vf → R (t.reg x)) ∧ PcMoved 2 s t ∧
      Keeps [] [x, Reg.vf] s t := by
  refine ⟨_, hexec, ?_, fun hx => ?_, .of_advance rfl, .of_setResultAndFlag_advance s x a f⟩
  · rwa [State.advance_reg, State.reg_vf_setResultAndFlag]
  · rwa [State.advance_reg, State.reg_setResultAndFlag_of_ne_vf s a f hx]

end Sys2Proof.Safety

namespace Sys2Proof.Proofs
open Sys2Proof Sys2Proof.Machine Sys2Proof.Safety

/-- Settles O30: 6xkk writes kk to Vx and advances (R151). -/
theorem loadImmediateWritesTheByte : Obligations.LoadImmediateWritesTheByte := by
  unfold Obligations.LoadImmediateWritesTheByte
  intro x kk s
  exact ⟨(s.setReg x kk).advance, rfl, s.reg_setReg_same x kk, .of_advance rfl, .of_setReg_advance s x kk⟩

/-- Settles O31: 7xkk writes Vx + kk to Vx, a sum of bytes and so one modulo 256, and advances (R152). -/
theorem addImmediateWrapsWithoutFlag : Obligations.AddImmediateWrapsWithoutFlag := by
  unfold Obligations.AddImmediateWrapsWithoutFlag
  intro x kk s
  refine ⟨(s.setReg x (s.reg x + kk)).advance, rfl, ?_, .of_advance rfl, .of_setReg_advance s x _⟩
  rw [State.advance_reg, State.reg_setReg_same, BitVec.toNat_add]

/-- Settles O32: 8xy0 writes Vy, as it was, to Vx and advances (R153). -/
theorem loadRegisterCopies : Obligations.LoadRegisterCopies := by
  unfold Obligations.LoadRegisterCopies
  intro x y s
  exact ⟨(s.setReg x (s.reg y)).advance, rfl, s.reg_setReg_same x _, .of_advance rfl, .of_setReg_advance s x _⟩

/-- Settles O34: the carry is that of the operands before the write (R157). -/
theorem addSetsCarry : Obligations.AddSetsCarry := by
  unfold Obligations.AddSetsCarry
  intro x y s
  exact flag_instruction (F := (· = _)) (R := (·.toNat = _)) rfl (carryFlag_eq _ _) (BitVec.toNat_add _ _)

/-- Settles O35: SUB and SUBN are one subtraction with the operands exchanged (R158, R160). -/
theorem subtractionsSetNoBorrow : Obligations.SubtractionsSetNoBorrow := by
  unfold Obligations.SubtractionsSetNoBorrow
  intro x y s
  constructor
  · exact flag_instruction (F := (· = _)) (R := (·.toNat = _)) rfl (noBorrowFlag_eq _ _) (sub_toNat _ _)
  · exact flag_instruction (F := (· = _)) (R := (·.toNat = _)) rfl (noBorrowFlag_eq _ _) (sub_toNat _ _)

/-- Settles O36: each shift loses one bit, the flag; the meanings of both never read y (R159, R161). -/
theorem shiftsMoveOneBitIntoVF : Obligations.ShiftsMoveOneBitIntoVF := by
  unfold Obligations.ShiftsMoveOneBitIntoVF
  intro x y s
  refine ⟨?_, ?_, fun y' => ⟨rfl, rfl⟩⟩
  · exact flag_instruction (F := (·.toNat = _)) (R := (·.toNat = _)) rfl (lowBitFlag_toNat _) (shiftRight_one_toNat _)
  · exact flag_instruction (F := (·.toNat = _)) (R := (·.toNat = _)) rfl (highBitFlag_toNat _) (shiftLeft_one_toNat _)

end Sys2Proof.Proofs

/-! ## The family of spec/42_display.md -/

namespace Sys2Proof.Machine

/-- Reading at the effective address of offset `k` is reading at `I + k`, since both are reduced to 12 bits (R63). -/
theorem State.memRead_ea (s : State) (k : Nat) : s.memRead (s.ea k) = s.memRead (s.i.toNat + k) :=
  s.memRead_mod _

end Sys2Proof.Machine

namespace Sys2Proof.Safety
open Sys2Proof.Machine

/-- Writing FB keeps a frame that leaves FB out. -/
theorem Keeps.with_fb {parts : List Part} {regs : List Reg} {s t : State} (fb : Framebuffer) (hfb : .fb ∈ parts)
    (h : Keeps parts regs s t) : Keeps parts regs s { t with fb := fb } := by
  refine ⟨fun p hp => ?_, h.reg⟩
  have hsame := h.part p hp
  cases p
  case fb => exact absurd hfb hp
  all_goals exact hsame

end Sys2Proof.Safety

namespace Sys2Proof.Proofs
open Sys2Proof Sys2Proof.Machine Sys2Proof.Safety

/-- Settles O40: the laws of the two drawing loops at n rows, begun on FB as it is with no collision yet (R182); n is
at most 15, so no pixel is under two bits of the sprite (R183). -/
theorem drawFlipsThePixelsUnderTheSprite : Obligations.DrawFlipsThePixelsUnderTheSprite := by
  unfold Obligations.DrawFlipsThePixelsUnderTheSprite
  intro x y n s
  have hn : n.val ≤ 32 := by omega
  refine ⟨_, rfl, fun r c hr hc => ?flipped, fun py px hout => ?kept, ?collision, ?flag, .of_advance rfl,
    (((Keeps.refl [.fb] [Reg.vf] s).with_fb _ (by simp)).setReg _ (by simp)).setPc _⟩
  case flipped =>
    rw [← State.memRead_ea]
    exact Blit.rows_fst_at s _ _ hn (s.fb, false) hr hc
  case kept =>
    exact Blit.rows_fst_of_ne s _ _ n.val (s.fb, false) py px fun r hr c hc => hout r c hr hc
  case collision =>
    rw [State.advance_reg, State.reg_setReg_same, flagByte_eq_one, Blit.rows_snd s _ _ hn]
    simp [State.memRead_ea, spriteBit]
  case flag =>
    rw [State.advance_reg, State.reg_setReg_same]
    exact flagByte_zero_or_one _

/-- Settles O39: CLS writes the blank framebuffer and PC, nothing else (R180). -/
theorem clearBlanksEveryPixel : Obligations.ClearBlanksEveryPixel := by
  unfold Obligations.ClearBlanksEveryPixel
  intro s
  exact ⟨State.advance { s with fb := Framebuffer.blank }, rfl, Framebuffer.pixel_blank, .of_advance rfl,
    ((Keeps.refl [.fb] [] s).with_fb _ (by simp)).setPc _⟩

end Sys2Proof.Proofs

/-! ## The family of spec/43_keypad.md -/

namespace Sys2Proof.Machine

/-- The low four bits of Vx select the bit of HELD (R190). -/
theorem State.isHeld_keyOf (s : State) (x : Reg) :
    s.isHeld (s.keyOf x) = s.held.getLsbD ((s.reg x).toNat % 16) := rfl

end Sys2Proof.Machine

namespace Sys2Proof.Safety
open Sys2Proof.Machine

/-- The predicate of SKNP (R192): skip when the test fails. -/
theorem PcMoved.of_skipIf_not (s : State) (b : Bool) : PcMoved (if b then 2 else 4) s (s.skipIf (!b)) := by
  cases b with
  | false => exact PcMoved.of_skipIf s true
  | true => exact PcMoved.of_skipIf s false

end Sys2Proof.Safety

namespace Sys2Proof.Proofs
open Sys2Proof Sys2Proof.Machine Sys2Proof.Safety

/-- Settles O42: both skips write PC alone, SKP when the key is held (R191) and SKNP when it is not (R192). -/
theorem skipsTestTheHeldKey : Obligations.SkipsTestTheHeldKey := by
  unfold Obligations.SkipsTestTheHeldKey
  intro x s
  rw [← State.isHeld_keyOf]
  constructor
  · exact ⟨s.skipIf (s.isHeld (s.keyOf x)), rfl, .of_skipIf s _, (Keeps.refl [] [] s).setPc _⟩
  · exact ⟨s.skipIf (!s.isHeld (s.keyOf x)), rfl, .of_skipIf_not s _, (Keeps.refl [] [] s).setPc _⟩

end Sys2Proof.Proofs

/-! ## The family of spec/44_timer_index_memory.md -/

namespace Sys2Proof.Machine

/-! ### Values as arithmetic -/

/-- The sum of Fx1E keeps all 16 bits of I (R205). -/
theorem addByte_toNat (w : Word) (b : Byte) : (w + b.setWidth 16).toNat = (w.toNat + b.toNat) % 65536 := by
  rw [BitVec.toNat_add, BitVec.toNat_setWidth, Nat.add_mod_mod]

/-- The last glyph begins at 75, so the address is not reduced to 16 bits. -/
theorem glyphAddress_toNat (b : Byte) : (glyphAddress b).toNat = 5 * (b.toNat % 16) := by
  rw [glyphAddress, BitVec.toNat_ofNat]
  omega

/-- AUDIO_ON as R204 says it: on exactly if ST is not 0. -/
theorem State.audioOn_eq (s : State) : s.audioOn = decide (s.st ≠ 0#8) := by
  rw [State.audioOn, decide_eq_decide, Nat.pos_iff_ne_zero, ne_eq, ne_eq, ← BitVec.toNat_inj]
  rfl

theorem bcdDigit_hundreds_toNat (b : Byte) : (bcdDigit b 0).toNat = b.toNat / 100 := by
  have hlt : b.toNat < 256 := b.isLt
  rw [bcdDigit, BitVec.toNat_ofNat]
  omega

theorem bcdDigit_tens_toNat (b : Byte) : (bcdDigit b 1).toNat = b.toNat / 10 % 10 := by
  rw [bcdDigit, BitVec.toNat_ofNat]
  omega

theorem bcdDigit_ones_toNat (b : Byte) : (bcdDigit b 2).toNat = b.toNat % 10 := by
  rw [bcdDigit, BitVec.toNat_ofNat]
  omega

/-! ### The three stores of Fx33 (R207) -/

/-- The digits of a byte stored from I upward: what Fx33 does before PC moves, as `exec_ldBVx` says. -/
def State.storeDigits (s : State) (b : Byte) : State :=
  ((s.memWrite (s.ea 0) (bcdDigit b 0)).memWrite (s.ea 1) (bcdDigit b 1)).memWrite (s.ea 2) (bcdDigit b 2)

theorem exec_ldBVx (x : Reg) (s : State) : exec (.ldBVx x) s = .next (s.storeDigits (s.reg x)).advance := rfl

/-- A read after a write at an effective address, which is already below 4096. -/
theorem State.memRead_memWrite_ea (s t : State) (k c : Nat) (b : Byte) :
    (t.memWrite (s.ea k) b).memRead c = if c % 4096 = s.ea k then b else t.memRead c := by
  rw [State.memRead_memWrite, Nat.mod_eq_of_lt (s.ea_lt k)]

/-- Every byte after the three stores. The last one written is seen first; the three addresses differ. -/
theorem State.memRead_storeDigits (s : State) (b : Byte) :
    (∀ k : Fin 3, (s.storeDigits b).memRead (s.i.toNat + k.val) = bcdDigit b k) ∧
      ∀ a, a % 4096 ≠ s.ea 0 → a % 4096 ≠ s.ea 1 → a % 4096 ≠ s.ea 2 →
        (s.storeDigits b).memRead a = s.memRead a := by
  have hread : ∀ a, (s.storeDigits b).memRead a =
      if a % 4096 = s.ea 2 then bcdDigit b 2 else if a % 4096 = s.ea 1 then bcdDigit b 1
      else if a % 4096 = s.ea 0 then bcdDigit b 0 else s.memRead a := fun a => by
    simp only [State.storeDigits, State.memRead_memWrite_ea]
  constructor
  · intro k
    have hat : ∀ j < 4096, (s.i.toNat + k.val) % 4096 = s.ea j ↔ k.val = j := fun j hj =>
      s.ea_inj (by omega) hj
    simp only [hread, hat 0 (by decide), hat 1 (by decide), hat 2 (by decide)]
    fin_cases k <;> rfl
  · intro a h0 h1 h2
    rw [hread, if_neg h2, if_neg h1, if_neg h0]

/-! ### The loops of Fx55 and Fx65 (R208, R209) -/

@[simp] theorem State.storeRegs_pc (s : State) (n : Nat) : (s.storeRegs n).pc = s.pc := by rw [State.storeRegs_eq]

@[simp] theorem State.loadRegs_pc (s : State) (n : Nat) : (s.loadRegs n).pc = s.pc := by rw [State.loadRegs_eq]

/-- The turn of a loop numbered as a register handles that register. -/
theorem regAt_val (r : Reg) : regAt r.val = r := Fin.ext (Nat.mod_eq_of_lt r.isLt)

end Sys2Proof.Machine

namespace Sys2Proof.Safety
open Sys2Proof.Machine

/-- The frame of an instruction that writes I, DT or ST: each of these is as before, or the frame leaves it out. -/
theorem Keeps.of_index_or_timer_advance (s : State) {parts : List Part} {i : Word} {dt st : Byte}
    (hi : i = s.i ∨ .i ∈ parts := by simp) (hdt : dt = s.dt ∨ .dt ∈ parts := by simp)
    (hst : st = s.st ∨ .st ∈ parts := by simp) :
    Keeps parts [] s (State.advance { s with i := i, dt := dt, st := st }) := by
  refine ⟨fun p hp => ?_, fun _ _ => rfl⟩
  have hsame := SamePart.refl p s
  cases p
  case i => exact hi.resolve_right hp
  case dt => exact hdt.resolve_right hp
  case st => exact hst.resolve_right hp
  all_goals exact hsame

/-- Writing RAM keeps a frame that leaves RAM out. -/
theorem Keeps.memWrite {parts : List Part} {regs : List Reg} {s t : State} (a : Nat) (b : Byte) (hram : .ram ∈ parts)
    (h : Keeps parts regs s t) : Keeps parts regs s (t.memWrite a b) := by
  refine ⟨fun p hp => ?_, h.reg⟩
  have hsame := h.part p hp
  cases p
  case ram => exact absurd hram hp
  all_goals exact hsame

theorem Keeps.of_storeDigits (s : State) (b : Byte) : Keeps [.ram] [] s (s.storeDigits b) :=
  (((Keeps.refl [.ram] [] s).memWrite _ _ (by simp)).memWrite _ _ (by simp)).memWrite _ _ (by simp)

theorem Keeps.of_storeRegs (s : State) (n : Nat) : Keeps [.ram] [] s (s.storeRegs n) := by
  induction n with
  | zero => exact Keeps.refl _ _ s
  | succ n ih => exact ih.memWrite _ _ (by simp)

theorem Keeps.of_loadRegs (s : State) {regs : List Reg} {n : Nat} (hregs : ∀ k < n, regAt k ∈ regs) :
    Keeps [] regs s (s.loadRegs n) := by
  induction n with
  | zero => exact Keeps.refl _ _ s
  | succ n ih => exact (ih fun k hk => hregs k (by omega)).setReg _ (hregs n (by omega))

/-- The registers of R209's loop are V0 to Vx. -/
theorem mem_writtenRegs_ldVxMem (x r : Reg) : r ∈ writtenRegs (.ldVxMem x) ↔ r ≤ x := by
  simp [writtenRegs]

end Sys2Proof.Safety

namespace Sys2Proof.Proofs
open Sys2Proof Sys2Proof.Machine Sys2Proof.Safety

/-- Settles O48: the law of the three stores, and the three digits as arithmetic (R207). -/
theorem bcdStoresThreeDigits : Obligations.BcdStoresThreeDigits := by
  unfold Obligations.BcdStoresThreeDigits
  intro x s
  obtain ⟨hdigit, hother⟩ := s.memRead_storeDigits (s.reg x)
  refine ⟨_, exec_ldBVx x s, ?hundreds, ?tens, ?ones, hother, .of_advance rfl, (Keeps.of_storeDigits s _).setPc _⟩
  case hundreds => exact (congrArg BitVec.toNat (hdigit 0)).trans (bcdDigit_hundreds_toNat _)
  case tens => exact (congrArg BitVec.toNat (hdigit 1)).trans (bcdDigit_tens_toNat _)
  case ones => exact (congrArg BitVec.toNat (hdigit 2)).trans (bcdDigit_ones_toNat _)

/-- Settles O49: the law of the storing loop at x + 1 turns, one for each register up to Vx (R208). -/
theorem storeRegistersWritesV0ToVx : Obligations.StoreRegistersWritesV0ToVx := by
  unfold Obligations.StoreRegistersWritesV0ToVx
  intro x s
  obtain ⟨hstored, hother⟩ := s.memRead_storeRegs (n := x.val + 1) (by omega)
  refine ⟨(s.storeRegs (x.val + 1)).advance, rfl, fun r hr => ?stored, fun a ha => ?other,
    .of_advance (s.storeRegs_pc _), (Keeps.of_storeRegs s _).setPc _⟩
  case stored =>
    calc (s.storeRegs (x.val + 1)).memRead (s.i.toNat + r.val)
        = (s.storeRegs (x.val + 1)).memRead (s.ea r.val) := (State.memRead_mod _ _).symm
      _ = s.reg (regAt r.val) := hstored r.val (Nat.lt_succ_of_le hr)
      _ = s.reg r := by rw [regAt_val]
  case other => exact hother a fun k hk => ha ⟨k, by omega⟩ (Nat.le_of_lt_succ hk)

/-- Settles O50: the law of the loading loop at x + 1 turns, one for each register up to Vx (R209). -/
theorem loadRegistersReadsV0ToVx : Obligations.LoadRegistersReadsV0ToVx := by
  unfold Obligations.LoadRegistersReadsV0ToVx
  intro x s
  have hreg := s.reg_loadRegs (n := x.val + 1) (by omega)
  refine ⟨(s.loadRegs (x.val + 1)).advance, rfl, fun r hr => ?loaded, fun r hr => ?above,
    .of_advance (s.loadRegs_pc _), (Keeps.of_loadRegs s fun k hk => ?written).setPc _⟩
  case loaded => rw [State.advance_reg, hreg, if_pos (Nat.lt_succ_of_le hr), State.memRead_ea]
  case above => rw [State.advance_reg, hreg, if_neg (Nat.not_lt.mpr hr)]
  case written => exact (mem_writtenRegs_ldVxMem x _).mpr ((Nat.mod_le k 16).trans (Nat.le_of_lt_succ hk))

/-- Settles O44: Annn writes nnn, widened by zeros, to I and advances (R201). -/
theorem loadIndexWritesTheAddress : Obligations.LoadIndexWritesTheAddress := by
  unfold Obligations.LoadIndexWritesTheAddress
  intro nnn s
  exact ⟨_, rfl, BitVec.toNat_setWidth_of_le (by decide), .of_advance rfl, .of_index_or_timer_advance s⟩

/-- Settles O45: each move is one write, of Vx (R202), DT (R203) or ST (R204), and AUDIO_ON is read off the new ST. -/
theorem timerMovesCopyTheByte : Obligations.TimerMovesCopyTheByte := by
  unfold Obligations.TimerMovesCopyTheByte
  intro x s
  refine ⟨?readDt, ?writeDt, ?writeSt⟩
  case readDt =>
    exact ⟨(s.setReg x s.dt).advance, rfl, s.reg_setReg_same x _, .of_advance rfl, .of_setReg_advance s x _⟩
  case writeDt => exact ⟨_, rfl, rfl, .of_advance rfl, .of_index_or_timer_advance s⟩
  case writeSt => exact ⟨_, rfl, rfl, State.audioOn_eq _, .of_advance rfl, .of_index_or_timer_advance s⟩

/-- Settles O46: Fx1E writes the 16-bit sum to I and advances (R205). -/
theorem addToIndexWrapsAt16Bits : Obligations.AddToIndexWrapsAt16Bits := by
  unfold Obligations.AddToIndexWrapsAt16Bits
  intro x s
  exact ⟨_, rfl, addByte_toNat _ _, .of_advance rfl, .of_index_or_timer_advance s⟩

/-- Settles O47: Fx29 writes the glyph's address to I and advances; a digit is at most 15, whence the bound (R206). -/
theorem fontAddressIsFiveTimesTheDigit : Obligations.FontAddressIsFiveTimesTheDigit := by
  unfold Obligations.FontAddressIsFiveTimesTheDigit
  intro x s
  have hi : (glyphAddress (s.reg x)).toNat = 5 * ((s.reg x).toNat % 16) := glyphAddress_toNat _
  have hbound : (glyphAddress (s.reg x)).toNat ≤ 75 := by omega
  exact ⟨_, rfl, hi, hbound, .of_advance rfl, .of_index_or_timer_advance s⟩

end Sys2Proof.Proofs

/-! ## The family of spec/60_exceptions.md -/

namespace Sys2Proof.Machine

/-- The row of the FB output's element py*64 + px (R239). -/
theorem rowAt_rowMajor (py : Fin 32) (px : Fin 64) : rowAt ((py.val * 64 + px.val) / 64) = py := by
  simp only [rowAt, Fin.ext_iff]
  omega

/-- The column of the FB output's element py*64 + px (R239). -/
theorem colAt_rowMajor (py : Fin 32) (px : Fin 64) : colAt (py.val * 64 + px.val) = px := by
  simp only [colAt, Fin.ext_iff]
  omega

theorem State.getElem_framebuffer (s : State) {k : Nat} (hk : k < 2048) :
    s.framebuffer[k] = Framebuffer.pixel s.fb (rowAt (k / 64)) (colAt k) := Vector.getElem_ofFn hk

end Sys2Proof.Machine

namespace Sys2Proof.Proofs
open Sys2Proof Sys2Proof.Machine Sys2Proof.Safety

/-- Settles O18: element k of the FB output is the pixel of row k / 64 and column k modulo 64, and at k = py*64 + px
these are py and px (R239). -/
theorem framebufferOutputIsRowMajor : Obligations.FramebufferOutputIsRowMajor := by
  unfold Obligations.FramebufferOutputIsRowMajor
  intro s py px
  rw [State.getElem_framebuffer, rowAt_rowMajor, colAt_rowMajor]

end Sys2Proof.Proofs

/-! ## The family of spec/30_encoding.md -/

namespace Sys2Proof

/-! ### A word from the value of one of its fields -/

theorem formNnn_of_op {w : Word} {op : BitVec 4} (hop : fieldOp w = op) : formNnn op (fieldNnn w) = w :=
  hop ▸ (word_eq_formNnn w).symm

theorem formXkk_of_op {w : Word} {op : BitVec 4} (hop : fieldOp w = op) :
    formXkk op (fieldX w) (fieldKk w) = w :=
  hop ▸ (word_eq_formXkk w).symm

theorem formX_of_op {w : Word} {op : BitVec 4} {kk : Byte} (hop : fieldOp w = op) (hkk : fieldKk w = kk) :
    formXkk op (fieldX w) kk = w :=
  hkk ▸ formXkk_of_op hop

theorem formXyn_of_op {w : Word} {op n : BitVec 4} (hop : fieldOp w = op) (hn : fieldN w = n) :
    formXyn op (fieldX w) (fieldY w) n = w :=
  hop ▸ hn ▸ (word_eq_formXyn w).symm

/-! ### The four arms of R94 that look beyond `op` -/

/-- 00E0 and 00EE have their own rows, so the arm answers SYS for neither (R97). -/
theorem encode_decode0 {w : Word} (hop : fieldOp w = 0x0#4) :
    encode (decode0 w) = w ∧ (decode0 w).wellFormed = true := by
  have hw : formNnn 0x0#4 (fieldNnn w) = w := formNnn_of_op hop
  unfold decode0
  split
  · rename_i hcls
    exact ⟨hcls.symm, rfl⟩
  · split
    · rename_i hret
      exact ⟨hret.symm, rfl⟩
    · rename_i hcls hret
      refine ⟨hw, ?_⟩
      have hnnn : fieldNnn w ≠ 0x0E0#12 ∧ fieldNnn w ≠ 0x0EE#12 :=
        ⟨fun e => hcls (by rw [← hw, e]; rfl), fun e => hret (by rw [← hw, e]; rfl)⟩
      simpa [Instr.wellFormed] using hnnn

theorem encode_decode8 {w : Word} {i : Instr} (hop : fieldOp w = 0x8#4) (h : decode8 w = .ok i) :
    encode i = w ∧ i.wellFormed = true := by
  unfold decode8 at h
  split at h
  case h_10 => cases h
  all_goals
    rename_i hn
    cases h
    exact ⟨formXyn_of_op hop hn, rfl⟩

theorem encode_decodeE {w : Word} {i : Instr} (hop : fieldOp w = 0xE#4) (h : decodeE w = .ok i) :
    encode i = w ∧ i.wellFormed = true := by
  unfold decodeE at h
  split at h
  case h_3 => cases h
  all_goals
    rename_i hkk
    cases h
    exact ⟨formX_of_op hop hkk, rfl⟩

theorem encode_decodeF {w : Word} {i : Instr} (hop : fieldOp w = 0xF#4) (h : decodeF w = .ok i) :
    encode i = w ∧ i.wellFormed = true := by
  unfold decodeF at h
  split at h
  case h_10 => cases h
  all_goals
    rename_i hkk
    cases h
    exact ⟨formX_of_op hop hkk, rfl⟩

/-- The last arm of R94's match on `op`, which is written as what is left over, is the arm of F. -/
theorem op_eq_F_of_not_mem : ∀ op : BitVec 4,
    op ∉ [0x0#4, 0x1#4, 0x2#4, 0x3#4, 0x4#4, 0x5#4, 0x6#4, 0x7#4, 0x8#4, 0x9#4, 0xA#4, 0xB#4, 0xC#4, 0xD#4, 0xE#4] →
      op = 0xF#4 := by
  decide

/-! ### The words each arm of R94 rejects, read as arithmetic -/

theorem decode8_eq_error_iff (w : Word) :
    (∃ e, decode8 w = .error e) ↔ w.toNat % 16 ∈ [0x8, 0x9, 0xA, 0xB, 0xC, 0xD, 0xF] := by
  have hrest : ∀ n : BitVec 4, n ∉ [0x0#4, 0x1#4, 0x2#4, 0x3#4, 0x4#4, 0x5#4, 0x6#4, 0x7#4, 0xE#4] →
      n.toNat ∈ [0x8, 0x9, 0xA, 0xB, 0xC, 0xD, 0xF] := by decide
  rw [← fieldN_toNat]
  unfold decode8
  split
  case h_10 => exact iff_of_true ⟨_, rfl⟩ (hrest _ (by simp_all))
  all_goals simp [*]

theorem decodeE_eq_error_iff (w : Word) : (∃ e, decodeE w = .error e) ↔ w.toNat % 256 ∉ [0x9E, 0xA1] := by
  rw [← fieldKk_toNat]
  unfold decodeE
  split
  case h_3 => exact iff_of_true ⟨_, rfl⟩ (by simp_all [BitVec.toNat_eq])
  all_goals simp [*]

theorem decodeF_eq_error_iff (w : Word) :
    (∃ e, decodeF w = .error e) ↔ w.toNat % 256 ∉ [0x07, 0x0A, 0x15, 0x18, 0x1E, 0x29, 0x33, 0x55, 0x65] := by
  rw [← fieldKk_toNat]
  unfold decodeF
  split
  case h_10 => exact iff_of_true ⟨_, rfl⟩ (by simp_all [BitVec.toNat_eq])
  all_goals simp [*]

/-- The arms of 5 and 9 read one instruction, at n = 0. -/
theorem ite_eq_error_iff (w : Word) (i : Instr) (e : Reject) :
    (∃ e', (if fieldN w = 0x0#4 then .ok i else .error e : Except Reject Instr) = .error e') ↔ w.toNat % 16 ≠ 0 := by
  have hn : fieldN w = 0x0#4 ↔ w.toNat % 16 = 0 := by rw [← fieldN_toNat]; exact BitVec.toNat_inj.symm
  split <;> simp_all

theorem decode_eq_error_iff (w : Word) : (∃ e, decode w = .error e) ↔ Safety.ReservedWord w := by
  unfold Safety.ReservedWord
  rw [← fieldOp_toNat]
  unfold decode
  -- The arms stand in the order of `op`: case `h_n` is the arm of n - 1.
  split <;> rename_i hop
  case h_6 | h_10 => simp [hop, ite_eq_error_iff]
  case h_9 => simp only [hop, decode8_eq_error_iff]; simp
  case h_15 => simp only [hop, decodeE_eq_error_iff]; simp
  case h_16 =>
    have hF : fieldOp w = 0xF#4 := op_eq_F_of_not_mem _ (by simp_all)
    simp only [hF, decodeF_eq_error_iff]; simp
  all_goals simp [hop]

end Sys2Proof

namespace Sys2Proof.Proofs
open Sys2Proof Sys2Proof.Machine Sys2Proof.Safety

/-- Settles O1: the field split undoes each layout, so the decoder takes the arm of the row the encoder wrote (R94,
R95); for SYS the word is neither 00E0 nor 00EE, since its field nnn would be 0E0 or 0EE. -/
theorem decodeOfEncodeIsTheInstruction : Obligations.DecodeOfEncodeIsTheInstruction := by
  unfold Obligations.DecodeOfEncodeIsTheInstruction
  intro i hwf
  cases i
  case sys nnn =>
    have hnnn : nnn ≠ 0x0E0#12 ∧ nnn ≠ 0x0EE#12 := by simpa [Instr.wellFormed] using hwf
    have hcls : formNnn 0x0#4 nnn ≠ 0x00E0#16 := fun e => hnnn.1 (by rw [← fieldNnn_formNnn 0x0#4 nnn, e]; rfl)
    have hret : formNnn 0x0#4 nnn ≠ 0x00EE#16 := fun e => hnnn.2 (by rw [← fieldNnn_formNnn 0x0#4 nnn, e]; rfl)
    simp [encode, decode, decode0, hcls, hret]
  case cls | ret => rfl
  all_goals simp [encode, decode, decode8, decodeE, decodeF]

/-- Settles O2: an arm of R94 is taken at one value of `op`, and of `n` or `kk` where it looks at them, and a word is
the layout of its fields. -/
theorem encodeOfDecodeIsTheWord : Obligations.EncodeOfDecodeIsTheWord := by
  unfold Obligations.EncodeOfDecodeIsTheWord
  intro w i h
  unfold decode at h
  -- The arms stand in the order of `op`: case `h_n` is the arm of n - 1.
  split at h <;> rename_i hop
  case h_1 => cases h; exact encode_decode0 hop
  case h_2 | h_3 | h_11 | h_12 => cases h; exact ⟨formNnn_of_op hop, rfl⟩
  case h_4 | h_5 | h_7 | h_8 | h_13 => cases h; exact ⟨formXkk_of_op hop, rfl⟩
  case h_6 | h_10 =>
    split at h
    case isTrue hn => cases h; exact ⟨formXyn_of_op hop hn, rfl⟩
    case isFalse => cases h
  case h_14 => cases h; exact ⟨formXyn_of_op hop rfl, rfl⟩
  case h_9 => exact encode_decode8 hop h
  case h_15 => exact encode_decodeE hop h
  case h_16 => exact encode_decodeF (op_eq_F_of_not_mem _ (by simp_all)) h

/-- Settles O3: arm by arm of R94, which is row by row of R96. -/
theorem decodingRejectsExactlyTheReservedWords : Obligations.DecodingRejectsExactlyTheReservedWords := by
  unfold Obligations.DecodingRejectsExactlyTheReservedWords
  exact decode_eq_error_iff

/-- Settles O4: thirteen fixed words, evaluated. -/
theorem wordsOfTheVectorsDecode : Obligations.WordsOfTheVectorsDecode := by
  unfold Obligations.WordsOfTheVectorsDecode
  decide

end Sys2Proof.Proofs

/-! ## The stack of return addresses (spec/40_control.md) -/

namespace Sys2Proof.Machine

/-! ### SP as arithmetic -/

theorem sp_eq_ofNat_iff (sp : Byte) {n : Nat} (hn : n < 256) : sp = BitVec.ofNat 8 n ↔ sp.toNat = n := by
  rw [← BitVec.toNat_inj, BitVec.toNat_ofNat, Nat.mod_eq_of_lt hn]

theorem sp_sub_one_toNat {sp : Byte} (h : 0 < sp.toNat) : (sp - 1#8).toNat = sp.toNat - 1 := by
  bv_omega

theorem sp_add_one_toNat {sp : Byte} (h : sp.toNat < 16) : (sp + 1#8).toNat = sp.toNat + 1 := by
  bv_omega

/-- Every slot after a push. -/
theorem stack_set_getElem (stack : Vector Word 16) {n : Nat} (hn : n < 16) (a : Word) (k : Fin 16) :
    (stack.set n a hn)[k.val] = if k.val = n then a else stack[k.val] := by
  simp only [Vector.getElem_set, eq_comm]

/-! ### 00EE and 2nnn for every SP (R122, R124; log entry 4) -/

theorem exec_ret_of_empty {s : State} (h : s.sp.toNat = 0) : exec .ret s = .next (s.raise .stackUnderflow) := by
  simp [exec, execRet, (sp_eq_ofNat_iff s.sp (by decide)).mpr h]

theorem exec_ret_of_nonempty {s : State} (h0 : 0 < s.sp.toNat) (h : s.sp.toNat ≤ 16) :
    exec .ret s = .next (State.setPc { s with sp := s.sp - 1#8 } ((s.stack[s.sp.toNat - 1]'(by omega)).toNat + 2)) := by
  have hne : s.sp ≠ 0#8 := fun e => by simp [e] at h0
  simp [exec, execRet, hne, State.pop_of_nonempty s h0 h]

theorem exec_ret_of_gt {s : State} (h : 16 < s.sp.toNat) : exec .ret s = .fault .noSuchStackSlot := by
  have hne : s.sp ≠ 0#8 := fun e => by simp [e] at h
  simp [exec, execRet, hne, (State.pop_eq_none s).mpr (.inr h)]

theorem exec_call_of_full (nnn : Addr12) {s : State} (h : s.sp.toNat = 16) :
    exec (.call nnn) s = .next (s.raise .stackOverflow) := by
  simp [exec, execCall, (sp_eq_ofNat_iff s.sp (by decide)).mpr h]

theorem exec_call_of_room (nnn : Addr12) {s : State} (h : s.sp.toNat < 16) :
    exec (.call nnn) s =
      .next (State.setPc { s with stack := s.stack.set s.sp.toNat s.pc, sp := s.sp + 1#8 } nnn.toNat) := by
  have hne : s.sp ≠ 16#8 := fun e => by simp [e] at h
  simp [exec, execCall, hne, State.push_of_room s _ h]

theorem exec_call_of_gt (nnn : Addr12) {s : State} (h : 16 < s.sp.toNat) :
    exec (.call nnn) s = .fault .noSuchStackSlot := by
  have hne : s.sp ≠ 16#8 := fun e => by simp [e] at h
  simp [exec, execCall, hne, (State.push_eq_none s _).mpr (Nat.le_of_lt h)]

end Sys2Proof.Machine

namespace Sys2Proof.Safety
open Sys2Proof.Machine

/-! ### The frame of the stack instructions and of a fault -/

/-- Writing SP, STACK, EDGE, FAULT or the count of draws: each is as before, or the frame leaves it out. -/
theorem Keeps.of_stack_or_edge_or_fault_or_draws (s : State) {parts : List Part} {regs : List Reg} {sp : Byte}
    {stack : Vector Word 16} {edge : Option Key} {fault : Option FaultKind} {draws : Nat}
    (hsp : sp = s.sp ∨ .sp ∈ parts := by simp) (hstack : stack = s.stack ∨ .stack ∈ parts := by simp)
    (hedge : edge = s.edge ∨ .edge ∈ parts := by simp) (hfault : fault = s.fault ∨ .fault ∈ parts := by simp)
    (hdraws : draws = s.draws ∨ .draws ∈ parts := by simp) :
    Keeps parts regs s { s with sp := sp, stack := stack, edge := edge, fault := fault, draws := draws } := by
  refine ⟨fun p hp => ?_, fun _ _ => rfl⟩
  have hsame := SamePart.refl p s
  cases p
  case sp => exact hsp.resolve_right hp
  case stack => exact fun k => by rw [hstack.resolve_right hp]
  case edge => exact hedge.resolve_right hp
  case fault => exact hfault.resolve_right hp
  case draws => exact hdraws.resolve_right hp
  all_goals exact hsame

theorem Keeps.of_raise (s : State) {parts : List Part} {regs : List Reg} (k : FaultKind)
    (hfault : .fault ∈ parts := by simp) : Keeps parts regs s (s.raise k) :=
  Keeps.of_stack_or_edge_or_fault_or_draws s (hfault := .inr hfault)

/-- Two frames, one after the other. -/
theorem Keeps.trans {parts : List Part} {regs : List Reg} {s t u : State} (hst : Keeps parts regs s t)
    (htu : Keeps parts regs t u) : Keeps parts regs s u := by
  refine ⟨fun p hp => ?_, fun r hr => (htu.reg r hr).trans (hst.reg r hr)⟩
  have h1 := hst.part p hp
  have h2 := htu.part p hp
  cases p
  case stack => exact fun k => (h2 k).trans (h1 k)
  case ram => exact fun a => (h2 a).trans (h1 a)
  case fb => exact fun py px => (h2 py px).trans (h1 py px)
  all_goals exact h2.trans h1

/-- A part that is as before again belongs to the frame. -/
theorem Keeps.restored {p : Part} {parts : List Part} {regs : List Reg} {s t : State} (h : Keeps (p :: parts) regs s t)
    (hp : SamePart p s t) : Keeps parts regs s t := by
  refine ⟨fun q hq => ?_, h.reg⟩
  by_cases e : q = p
  · exact e ▸ hp
  · exact h.part q (by simp [e, hq])

end Sys2Proof.Safety

namespace Sys2Proof.Proofs
open Sys2Proof Sys2Proof.Machine Sys2Proof.Safety

/-- Settles O22: the two equations of 00EE for SP up to 16 (R122). -/
theorem returnPopsTheCallAddressOrUnderflows : Obligations.ReturnPopsTheCallAddressOrUnderflows := by
  unfold Obligations.ReturnPopsTheCallAddressOrUnderflows
  intro s
  constructor
  · intro ⟨hpos, hle⟩
    exact ⟨_, exec_ret_of_nonempty hpos hle, sp_sub_one_toNat hpos, State.setPc_pc_toNat _ _,
      (Keeps.of_stack_or_edge_or_fault_or_draws s).setPc _⟩
  · intro hsp
    exact ⟨_, exec_ret_of_empty hsp, rfl, rfl, .of_raise s _⟩

/-- Settles O24: the two equations of 2nnn for SP up to 16 (R124). -/
theorem callPushesItsAddressOrOverflows : Obligations.CallPushesItsAddressOrOverflows := by
  unfold Obligations.CallPushesItsAddressOrOverflows
  intro nnn s
  constructor
  · intro hlt
    refine ⟨_, exec_call_of_room nnn hlt, sp_add_one_toNat hlt, ?_, stack_set_getElem _ hlt _,
      (Keeps.of_stack_or_edge_or_fault_or_draws s).setPc _⟩
    rw [State.setPc_pc_toNat]
    exact Nat.mod_eq_of_lt nnn.isLt
  · intro hfull
    exact ⟨_, exec_call_of_full nnn hfull, rfl, rfl, .of_raise s _⟩

/-- Settles O26: the equations of 00EE and 2nnn for SP above 16 (log entry 4). -/
theorem callAndReturnStopWithoutAStackSlot : Obligations.CallAndReturnStopWithoutAStackSlot := by
  unfold Obligations.CallAndReturnStopWithoutAStackSlot
  intro nnn s h
  exact ⟨exec_ret_of_gt h, exec_call_of_gt nnn h⟩

/-- Settles O25: RET pops the slot that CALL wrote, which holds the address of the CALL (R130); SP goes up and down by
one, so it belongs to the frame again. -/
theorem callThenReturnContinuesAfterTheCall : Obligations.CallThenReturnContinuesAfterTheCall := by
  unfold Obligations.CallThenReturnContinuesAfterTheCall
  intro nnn s hlt
  obtain ⟨t, hcall, htsp, -, htstack, hst⟩ := (callPushesItsAddressOrOverflows nnn s).1 hlt
  obtain ⟨u, hret, husp, hupc, htu⟩ := (returnPopsTheCallAddressOrUnderflows t).1 (by omega)
  have hustack : ∀ k : Fin 16, u.stack[k.val] = t.stack[k.val] := htu.part .stack (by simp)
  have hpopped : t.stack[t.sp.toNat - 1]'(by omega) = s.pc := by
    simp [htsp, htstack ⟨s.sp.toNat, hlt⟩]
  refine ⟨t, u, hcall, hret, ?pc, ?stack, ?frame⟩
  case pc =>
    intro _
    rw [hupc, hpopped]
    omega
  case stack =>
    intro k hk
    rw [hustack, htstack, if_neg hk]
  case frame =>
    have hsu : Keeps [.sp, .stack] [] s u := hst.trans (htu.mono (by simp) (by simp))
    exact hsu.restored (BitVec.eq_of_toNat_eq (by omega))

/-- Settles O28: both skips write PC alone; with x = y the two registers are equal, so one test always holds and the
other never (R127, R128). -/
theorem skipsCompareTwoRegisters : Obligations.SkipsCompareTwoRegisters := by
  unfold Obligations.SkipsCompareTwoRegisters
  intro x y s
  have hse := PcMoved.of_skipIf_beq s (s.reg x) (s.reg y)
  have hsne := PcMoved.of_skipIf_bne s (s.reg x) (s.reg y)
  refine ⟨⟨_, rfl, hse, (Keeps.refl [] [] s).setPc _⟩, ⟨_, rfl, hsne, (Keeps.refl [] [] s).setPc _⟩, fun hxy => ?_⟩
  have heq : s.reg x = s.reg y := by rw [hxy]
  rw [if_pos heq] at hse hsne
  exact ⟨fun t ht => Host.Outcome.next.inj ht ▸ hse, fun t ht => Host.Outcome.next.inj ht ▸ hsne⟩

/-- Settles O29: Bnnn writes the sum to PC, reduced to 12 bits, and nothing else (R129). -/
theorem jumpWithOffsetAddsV0 : Obligations.JumpWithOffsetAddsV0 := by
  unfold Obligations.JumpWithOffsetAddsV0
  intro nnn s
  exact ⟨s.setPc (nnn.toNat + (s.reg 0).toNat), rfl, State.setPc_pc_toNat _ _, (Keeps.refl [] [] s).setPc _⟩

end Sys2Proof.Proofs

/-! ## What each instruction writes, and where it goes -/

namespace Sys2Proof.Machine

/-! ### Fx0A with and without an edge (R193) -/

theorem exec_ldVxK_of_none (x : Reg) {s : State} (h : s.edge = none) : exec (.ldVxK x) s = .next s := by
  simp [exec, execLdVxK, h]

theorem exec_ldVxK_of_some (x : Reg) {s : State} {k : Key} (h : s.edge = some k) :
    exec (.ldVxK x) s = .next (State.setReg { s with edge := none } x (keyByte k)).advance := by
  simp [exec, execLdVxK, h]

theorem exec_ldVxK_cases {x : Reg} {s t : State} (h : exec (.ldVxK x) s = .next t) :
    (s.edge = none ∧ t = s) ∨
      ∃ k, s.edge = some k ∧ t = (State.setReg { s with edge := none } x (keyByte k)).advance := by
  cases hedge : s.edge with
  | none => exact .inl ⟨rfl, Host.Outcome.next.inj (h.symm.trans (exec_ldVxK_of_none x hedge))⟩
  | some k => exact .inr ⟨k, rfl, Host.Outcome.next.inj (h.symm.trans (exec_ldVxK_of_some x hedge))⟩

end Sys2Proof.Machine

namespace Sys2Proof.Safety
open Sys2Proof.Machine

/-! ### The frame of every instruction (R39) -/

/-- The frame of every instruction is its row of R39's table. -/
theorem exec_keeps {i : Instr} {s t : State} (h : exec i s = .next t) :
    Keeps (writtenParts i) (writtenRegs i) s t := by
  cases i <;> dsimp only [writtenParts]
  case ret =>
    obtain ⟨-, rfl⟩ | ⟨_, rfl⟩ := execRet_cases h
    · exact Keeps.of_raise s _
    · exact (Keeps.of_stack_or_edge_or_fault_or_draws s).setPc _
  case call nnn =>
    obtain ⟨-, rfl⟩ | ⟨_, rfl⟩ := execCall_cases h
    · exact Keeps.of_raise s _
    · exact (Keeps.of_stack_or_edge_or_fault_or_draws s).setPc _
  case ldVxK x =>
    obtain ⟨-, rfl⟩ | ⟨k, -, rfl⟩ := exec_ldVxK_cases h
    · exact Keeps.refl _ _ _
    · exact ((Keeps.of_stack_or_edge_or_fault_or_draws s).setReg _ (by simp [writtenRegs])).setPc _
  all_goals obtain rfl := Host.Outcome.next.inj h
  case rnd => exact ((Keeps.of_stack_or_edge_or_fault_or_draws s).setReg _ (by simp [writtenRegs])).setPc _
  case cls => exact ((Keeps.refl _ _ s).with_fb _ (by simp)).setPc _
  case drw => exact (((Keeps.refl _ _ s).with_fb _ (by simp)).setReg _ (by simp [writtenRegs])).setPc _
  case ldBVx => exact (Keeps.of_storeDigits s _).setPc _
  case ldMemVx => exact (Keeps.of_storeRegs s _).setPc _
  case ldVxMem x =>
    exact (Keeps.of_loadRegs s fun k hk =>
      (mem_writtenRegs_ldVxMem x _).mpr ((Nat.mod_le k 16).trans (Nat.le_of_lt_succ hk))).setPc _
  case ldI | addIVx | ldFVx | ldDtVx | ldStVx => exact .of_index_or_timer_advance s
  case ldImm | addImm | ldReg | orReg | andReg | xorReg | ldVxDt => exact .of_setReg_advance s _ _
  case addReg | sub | shr | subn | shl => exact .of_setResultAndFlag_advance s _ _ _
  all_goals exact (Keeps.refl _ _ s).setPc _

/-- Only RET and CALL raise a fault, and then they change nothing else (R222 to R224); a RET that raises none has an
address to pop. -/
theorem exec_fault {i : Instr} {s t : State} (h : exec i s = .next t) :
    (t.fault = s.fault ∧ (i = .ret → 0 < s.sp.toNat ∧ s.sp.toNat ≤ 16)) ∨
      (i = .ret ∧ s.sp.toNat = 0 ∧ t = s.raise .stackUnderflow) ∨
      ∃ nnn, i = .call nnn ∧ s.sp.toNat = 16 ∧ t = s.raise .stackOverflow := by
  have hkeeps := exec_keeps h
  cases i
  case ret =>
    obtain hfault | ⟨hsp, rfl⟩ := execRet_cases h
    · exact .inr (.inl ⟨rfl, hfault⟩)
    · exact .inl ⟨rfl, fun _ => hsp⟩
  case call nnn =>
    obtain hfault | ⟨_, rfl⟩ := execCall_cases h
    · exact .inr (.inr ⟨nnn, rfl, hfault⟩)
    · exact .inl ⟨rfl, nofun⟩
  all_goals exact .inl ⟨hkeeps.part .fault (by simp [writtenParts]), nofun⟩

/-! ### PC after every instruction (R25) -/

/-- Both ways of writing a skip's distance. -/
theorem skip_distance (pc : Nat) (b : Bool) : (pc + if b then 4 else 2) = if b then pc + 4 else pc + 2 := by
  cases b <;> rfl

/-- PC is the table's value reduced to 12 bits, or untouched: by a fault, or by Fx0A while it waits. -/
theorem exec_pc {i : Instr} {s t : State} (h : exec i s = .next t) :
    t.pc.toNat = nextPc i s % 4096 ∨ (t.pc = s.pc ∧ (¬ Running t ∨ nextPc i s = s.pc.toNat)) := by
  cases i
  case ret =>
    obtain ⟨-, rfl⟩ | ⟨hsp, rfl⟩ := execRet_cases h
    · exact .inr ⟨rfl, .inl nofun⟩
    · left
      rw [State.setPc_pc_toNat]
      simp [nextPc, show s.sp.toNat - 1 < 16 by omega]
  case call nnn =>
    obtain ⟨-, rfl⟩ | ⟨_, rfl⟩ := execCall_cases h
    · exact .inr ⟨rfl, .inl nofun⟩
    · exact .inl (State.setPc_pc_toNat _ _)
  case ldVxK x =>
    obtain ⟨hedge, rfl⟩ | ⟨k, hedge, rfl⟩ := exec_ldVxK_cases h
    · exact .inr ⟨rfl, .inr (by simp [nextPc, hedge])⟩
    · left
      simp [State.advance_pc_toNat, nextPc, hedge]
  all_goals obtain rfl := Host.Outcome.next.inj h; left
  case ldMemVx => rw [State.advance_pc_toNat, State.storeRegs_pc]; rfl
  case ldVxMem => rw [State.advance_pc_toNat, State.loadRegs_pc]; rfl
  case seImm | sneImm | seReg | sneReg => rw [State.skipIf_pc_toNat, skip_distance]; simp [nextPc]
  case skp | sknp => rw [State.skipIf_pc_toNat, skip_distance, State.isHeld_keyOf]; simp [nextPc]
  all_goals exact State.setPc_pc_toNat _ _

/-- The table's value is even if the addresses it is made of are (R66). -/
theorem nextPc_even {i : Instr} {s : State} (hpc : s.pc.toNat % 2 = 0)
    (hjump : ∀ nnn, i = .jp nnn ∨ i = .call nnn → nnn.toNat % 2 = 0)
    (hoffset : ∀ nnn, i = .jpV0 nnn → (nnn.toNat + (s.reg 0).toNat) % 2 = 0)
    (hret : i = .ret → (s.stack.toList.getD (s.sp.toNat - 1) 0#16).toNat % 2 = 0) : nextPc i s % 2 = 0 := by
  cases i <;> dsimp only [nextPc]
  case jp | call => exact hjump _ (by simp)
  case jpV0 => exact hoffset _ rfl
  case ret => have := hret rfl; omega
  case seImm | sneImm | seReg | sneReg | skp | sknp | ldVxK => split <;> omega
  all_goals omega

/-! ### VF after the instructions with a flag (R22) -/

theorem exec_vf_of_writesFlag {i : Instr} {s t : State} (h : exec i s = .next t) (hflag : writesFlag i = true) :
    t.reg Reg.vf = 0#8 ∨ t.reg Reg.vf = 1#8 := by
  cases i
  case addReg | sub | subn | shr | shl =>
    obtain rfl := Host.Outcome.next.inj h
    rw [State.advance_reg, State.reg_vf_setResultAndFlag]
    simp only [carryFlag, noBorrowFlag, lowBitFlag_eq, highBitFlag_eq, flagByte_zero_or_one]
  case drw =>
    obtain rfl := Host.Outcome.next.inj h
    rw [State.advance_reg, State.reg_setReg_same]
    exact flagByte_zero_or_one _
  all_goals cases hflag

/-! ### The invariant after an instruction (R37) -/

/-- Only 00EE and 2nnn can stop, and with SP at most 16 they do not. -/
theorem exec_answers (i : Instr) {s : State} (hsp : s.sp.toNat ≤ 16) : ∃ t, exec i s = .next t := by
  cases i
  case ret =>
    obtain h | h := Nat.eq_zero_or_pos s.sp.toNat
    · exact ⟨_, exec_ret_of_empty h⟩
    · exact ⟨_, exec_ret_of_nonempty h hsp⟩
  case call nnn =>
    obtain h | h := Nat.lt_or_eq_of_le hsp
    · exact ⟨_, exec_call_of_room nnn h⟩
    · exact ⟨_, exec_call_of_full nnn h⟩
  case ldVxK x =>
    cases hedge : s.edge with
    | none => exact ⟨_, exec_ldVxK_of_none x hedge⟩
    | some k => exact ⟨_, exec_ldVxK_of_some x hedge⟩
  all_goals exact ⟨_, rfl⟩

theorem exec_mem_wf {i : Instr} {s t : State} (h : exec i s = .next t) (hs : Memory.wf s.mem = true) :
    Memory.wf t.mem = true := by
  cases i
  case ret => obtain ⟨-, rfl⟩ | ⟨_, rfl⟩ := execRet_cases h <;> exact hs
  case call => obtain ⟨-, rfl⟩ | ⟨_, rfl⟩ := execCall_cases h <;> exact hs
  case ldVxK => obtain ⟨-, rfl⟩ | ⟨k, -, rfl⟩ := exec_ldVxK_cases h <;> exact hs
  all_goals obtain rfl := Host.Outcome.next.inj h
  case ldBVx => exact State.memWrite_wf _ _ (State.memWrite_wf _ _ (State.memWrite_wf _ _ hs))
  case ldMemVx => exact State.storeRegs_wf _ hs
  case ldVxMem => rw [State.advance_mem, State.loadRegs_eq]; exact hs
  all_goals exact hs

/-- SP and STACK after an instruction: as before, one less, or one more with the address of the CALL on top. -/
theorem exec_stack {i : Instr} {s t : State} (h : exec i s = .next t) :
    (t.sp = s.sp ∧ ∀ k : Fin 16, t.stack[k.val] = s.stack[k.val]) ∨
      (i = .ret ∧ 0 < s.sp.toNat ∧ s.sp.toNat ≤ 16 ∧ t.sp.toNat = s.sp.toNat - 1 ∧
        ∀ k : Fin 16, t.stack[k.val] = s.stack[k.val]) ∨
      (s.sp.toNat < 16 ∧ t.sp.toNat = s.sp.toNat + 1 ∧
        ∀ k : Fin 16, t.stack[k.val] = if k.val = s.sp.toNat then s.pc else s.stack[k.val]) := by
  have hkeeps := exec_keeps h
  cases i
  case ret =>
    obtain ⟨-, rfl⟩ | ⟨⟨hpos, hle⟩, rfl⟩ := execRet_cases h
    · exact .inl ⟨rfl, fun _ => rfl⟩
    · exact .inr (.inl ⟨rfl, hpos, hle, sp_sub_one_toNat hpos, fun _ => rfl⟩)
  case call nnn =>
    obtain ⟨-, rfl⟩ | ⟨hlt, rfl⟩ := execCall_cases h
    · exact .inl ⟨rfl, fun _ => rfl⟩
    · exact .inr (.inr ⟨hlt, sp_add_one_toNat hlt, stack_set_getElem _ hlt _⟩)
  all_goals exact .inl ⟨hkeeps.part .sp (by simp [writtenParts]), hkeeps.part .stack (by simp [writtenParts])⟩

/-- Every instruction keeps the invariant. -/
theorem exec_keeps_inv {i : Instr} {s t : State} (h : exec i s = .next t) (hs : Inv s) : Inv t := by
  obtain ⟨hpc, hsp, hstack, hmem⟩ := hs
  have hpct : t.pc.toNat < 4096 := by
    obtain h | ⟨h, -⟩ := exec_pc h
    · omega
    · rwa [h]
  refine ⟨hpct, ?sp, ?stack, exec_mem_wf h hmem⟩
  case sp =>
    obtain ⟨h, -⟩ | ⟨-, -, -, h, -⟩ | ⟨hroom, h, -⟩ := exec_stack h
    · rwa [h]
    · omega
    · omega
  case stack =>
    intro k
    obtain ⟨-, h⟩ | ⟨-, -, -, -, h⟩ | ⟨-, -, h⟩ := exec_stack h <;> rw [h k]
    · exact hstack k
    · exact hstack k
    · split
      · exact hpc
      · exact hstack k

end Sys2Proof.Safety

namespace Sys2Proof.Proofs
open Sys2Proof Sys2Proof.Machine Sys2Proof.Safety

/-- Settles O54: the frame of every instruction (R39). -/
theorem instructionsWriteOnlyTheirState : Obligations.InstructionsWriteOnlyTheirState := by
  unfold Obligations.InstructionsWriteOnlyTheirState
  exact fun _ _ _ h => exec_keeps h

/-- Settles O38: what the instructions with a flag leave in VF, and for the others the frame (R22). -/
theorem flagIsWrittenOnlyByFlagInstructions : Obligations.FlagIsWrittenOnlyByFlagInstructions := by
  unfold Obligations.FlagIsWrittenOnlyByFlagInstructions
  intro i s t h
  exact ⟨exec_vf_of_writesFlag h, fun _ hne => by_contra fun hout => hne ((exec_keeps h).reg Reg.vf hout)⟩

/-- Settles O55: a running next state is at the table's value or, waiting in Fx0A, where it was, and that is a 12-bit
value; a fault raised in this step changed FAULT alone (R25, R224). -/
theorem everyInstructionLeavesPcWhereTheTableSays : Obligations.EveryInstructionLeavesPcWhereTheTableSays := by
  unfold Obligations.EveryInstructionLeavesPcWhereTheTableSays
  intro i s t hpc hrun h
  constructor
  · intro hrunt
    obtain h | ⟨h, hstop | hnext⟩ := exec_pc h
    · exact h
    · exact absurd hrunt hstop
    · rw [h, hnext, Nat.mod_eq_of_lt hpc]
  · intro hstop
    obtain ⟨hsame, -⟩ | ⟨-, -, rfl⟩ | ⟨-, -, -, rfl⟩ := exec_fault h
    · exact absurd (hsame.trans hrun) hstop
    · rfl
    · rfl

/-- Settles O56: the table's values are even, RET's because it pops a live slot, and CALL pushes an even PC (R66). -/
theorem evenTargetsKeepPcEven : Obligations.EvenTargetsKeepPcEven := by
  unfold Obligations.EvenTargetsKeepPcEven
  intro i s t h hpc hstack hjump hoffset
  constructor
  · obtain ⟨-, hret⟩ | ⟨-, -, rfl⟩ | ⟨-, -, -, rfl⟩ := exec_fault h
    · have hnext : nextPc i s % 2 = 0 := nextPc_even hpc hjump hoffset fun hi => by
        obtain ⟨hpos, hle⟩ := hret hi
        simpa [show s.sp.toNat - 1 < 16 by omega] using hstack ⟨s.sp.toNat - 1, by omega⟩ (by simpa using hpos)
      obtain h | ⟨h, -⟩ := exec_pc h
      · omega
      · rwa [h]
    · exact hpc
    · exact hpc
  · intro k hk
    obtain ⟨hsp, hst⟩ | ⟨-, -, -, hsp, hst⟩ | ⟨-, hsp, hst⟩ := exec_stack h <;> rw [hst k]
    · exact hstack k (hsp ▸ hk)
    · exact hstack k (by omega)
    · split
      · exact hpc
      · exact hstack k (by omega)

end Sys2Proof.Proofs

/-! ## The events of the host (spec/60_exceptions.md, spec/70_reset_and_hazards.md) -/

namespace Sys2Proof.Machine

/-! ### LOAD (R261, R264) -/

theorem loadAnswer_of_fits {rom : List Byte} (h : rom.length ≤ 3584) : loadAnswer rom = .loaded := if_pos h

theorem loadAnswer_of_oversize {rom : List Byte} (h : 3584 < rom.length) : loadAnswer rom = .loadError :=
  if_neg (Nat.not_le_of_lt h)

theorem State.doLoad_of_fits (s : State) {rom : List Byte} (h : rom.length ≤ 3584) :
    s.doLoad rom = (s.storeImage 0x200 rom).clearForLoad := by
  simp [State.doLoad, loadAnswer_of_fits h]

theorem State.doLoad_of_oversize (s : State) {rom : List Byte} (h : 3584 < rom.length) : s.doLoad rom = s := by
  simp [State.doLoad, loadAnswer_of_oversize h]

/-! ### RESET (R260) -/

/-- RAM after RESET is FONT, 80 bytes, and zero above it. -/
theorem State.memRead_reset (a : Nat) :
    State.reset.memRead a = if a % 4096 < 80 then font.getD (a % 4096) 0#8 else 0#8 := by
  show font.getD (a % 4096) 0#8 = _
  split
  · rfl
  · rename_i h
    exact List.getD_eq_default _ _ (Nat.not_lt.mp h)

theorem State.reg_reset (r : Reg) : State.reset.reg r = 0#8 := Vector.getElem_replicate _

theorem State.stack_reset (k : Fin 16) : State.reset.stack[k.val] = 0#16 := Vector.getElem_replicate _

/-! ### AUDIO_ON (R240) -/

theorem State.audioOn_iff (s : State) : s.audioOn = true ↔ 0 < s.st.toNat := decide_eq_true_iff

theorem State.audioOn_eq_false_iff (s : State) : s.audioOn = false ↔ s.st.toNat = 0 := by
  rw [← Bool.not_eq_true, State.audioOn_iff, Nat.pos_iff_ne_zero, not_not]

/-! ### STEP -/

/-- An instruction executed by the next event. -/
theorem step_of_executes {s : State} {i : Instr} (h : Safety.Executes s i) :
    step s = exec i { s with schedule := s.schedule.tail } := by
  obtain ⟨hev, hrun, hd⟩ := h
  rw [step_eq, hev]
  exact stepEvent_of_decoded hrun hd

end Sys2Proof.Machine

namespace Sys2Proof.Safety
open Sys2Proof.Machine

/-- What a step that answers is. RESET and LOAD clear FAULT and ST, but for a LOAD that is refused; a STEP does nothing
in the halt, faults on a reserved word, or executes; TICK60 and the KEY events do what they do in every state. -/
inductive StepsTo (s : State) : State → Prop where
  | cleared {t : State} (hinit : Initialises s) (hfault : t.fault = none) (hst : t.st = 0#8) : StepsTo s t
  | refused (hinit : Initialises s) : StepsTo s { s with schedule := s.schedule.tail }
  | halted (hev : s.takeEvent.1 = .step) (hhalt : ¬ Running s) : StepsTo s { s with schedule := s.schedule.tail }
  | reserved (hev : s.takeEvent.1 = .step) (hrun : Running s) (hword : ReservedWord s.fetchWord) :
      StepsTo s (State.raise { s with schedule := s.schedule.tail } .decodeFault)
  | executed {i : Instr} {t : State} (hi : Executes s i) (h : exec i { s with schedule := s.schedule.tail } = .next t) :
      StepsTo s t
  | ticked (hev : s.takeEvent.1 = .tick60) : StepsTo s (State.doTick { s with schedule := s.schedule.tail })
  | keyed {held : Word} {edge : Option Key} (k : Key) (hev : s.takeEvent.1 = .keyDown k ∨ s.takeEvent.1 = .keyUp k) :
      StepsTo s { s with held := held, edge := edge, schedule := s.schedule.tail }

theorem stepEvent_stepsTo {s t : State} (hev : s.takeEvent.1 = .step)
    (h : stepEvent { s with schedule := s.schedule.tail } = .next t) : StepsTo s t := by
  generalize hu : ({ s with schedule := s.schedule.tail } : State) = u at h
  have hfault : s.fault = u.fault := hu ▸ rfl
  have hword : s.fetchWord = u.fetchWord := hu ▸ rfl
  cases hf : u.fault with
  | some k =>
    rw [stepEvent_of_halted hf] at h
    cases h
    exact hu ▸ .halted hev (by simp [Running, hfault, hf])
  | none =>
    obtain ⟨e, hd, rfl⟩ | ⟨i, hd, h⟩ := stepEvent_cases hf h
    · exact hu ▸ .reserved hev (hfault.trans hf) (hword ▸ (decode_eq_error_iff _).mp ⟨e, hd⟩)
    · exact .executed ⟨hev, hfault.trans hf, hword ▸ hd⟩ (hu ▸ h)

theorem step_stepsTo {s t : State} (h : step s = .next t) : StepsTo s t := by
  rw [step_eq] at h
  cases hev : s.takeEvent.1 <;> rw [hev] at h
  case step => exact stepEvent_stepsTo hev h
  all_goals obtain rfl := Host.Outcome.next.inj h
  case reset => exact .cleared (.inl hev) rfl rfl
  case load rom =>
    obtain hover | hfits := Nat.lt_or_ge 3584 rom.length
    · rw [State.doLoad_of_oversize _ hover]
      exact .refused (.inr ⟨rom, hev⟩)
    · rw [State.doLoad_of_fits _ hfits]
      exact .cleared (.inr ⟨rom, hev⟩) rfl rfl
  case tick60 => exact .ticked hev
  case keyDown k => exact .keyed k (.inl hev)
  case keyUp k => exact .keyed k (.inr hev)

/-- The frame of TICK60 and the KEY events: each part they write is as before, or the frame leaves it out. -/
theorem Keeps.of_timers_or_keypad (s : State) {parts : List Part} {regs : List Reg} {dt st : Byte} {held : Word}
    {edge : Option Key} {es : List Event} (hdt : dt = s.dt ∨ .dt ∈ parts := by simp)
    (hst : st = s.st ∨ .st ∈ parts := by simp) (hheld : held = s.held ∨ .held ∈ parts := by simp)
    (hedge : edge = s.edge ∨ .edge ∈ parts := by simp) (hes : es = s.schedule ∨ .schedule ∈ parts := by simp) :
    Keeps parts regs s { s with dt := dt, st := st, held := held, edge := edge, schedule := es } := by
  refine ⟨fun p hp => ?_, fun _ _ => rfl⟩
  have hsame := SamePart.refl p s
  cases p
  case dt => exact hdt.resolve_right hp
  case st => exact hst.resolve_right hp
  case held => exact hheld.resolve_right hp
  case edge => exact hedge.resolve_right hp
  case schedule => exact hes.resolve_right hp
  all_goals exact hsame

theorem Keeps.of_schedule_raise (s : State) (es : List Event) (k : FaultKind) :
    Keeps [.fault, .schedule] [] s (State.raise { s with schedule := es } k) :=
  (Keeps.of_raise (parts := [.fault]) (regs := []) _ k).of_schedule.mono (by simp) (by simp)

/-- RESET and LOAD set both FAULT and ST to their reset values, or else they change nothing. -/
theorem step_of_initialises {s t : State} (hinit : Initialises s) (h : step s = .next t) :
    (t.fault = none ∧ t.st = 0#8) ∨ t = { s with schedule := s.schedule.tail } := by
  cases step_stepsTo h with
  | cleared _ hfault hst => exact .inl ⟨hfault, hst⟩
  | refused => exact .inr rfl
  | halted hev | reserved hev | ticked hev => obtain hi | ⟨rom, hi⟩ := hinit <;> simp [hi] at hev
  | executed hi =>
    have hev := hi.1
    obtain hi | ⟨rom, hi⟩ := hinit <;> simp [hi] at hev
  | keyed k hev => obtain hi | ⟨rom, hi⟩ := hinit <;> simp [hi] at hev

/-! ### The invariant after an event (R37) -/

theorem inv_reset : Inv State.reset := ⟨by decide, by decide, by decide, Memory.wf_reset⟩

theorem doLoad_keeps_inv {s : State} (rom : List Byte) (hs : Inv s) : Inv (s.doLoad rom) := by
  obtain hover | hfits := Nat.lt_or_ge 3584 rom.length
  · rwa [State.doLoad_of_oversize s hover]
  · rw [State.doLoad_of_fits s hfits]
    exact ⟨inv_reset.pc, inv_reset.sp, inv_reset.stack, State.storeImage_wf _ _ hs.mem⟩

theorem stepEvent_keeps_inv {s : State} (hs : Inv s) : ∃ t, stepEvent s = .next t ∧ Inv t := by
  cases hfault : s.fault with
  | some k => exact ⟨s, stepEvent_of_halted hfault, hs⟩
  | none =>
    cases hd : decode s.fetchWord with
    | error e =>
      exact ⟨s.raise .decodeFault, stepEvent_of_reserved hfault hd, hs.pc, hs.sp, hs.stack, hs.mem⟩
    | ok i =>
      obtain ⟨t, ht⟩ := exec_answers i hs.sp
      exact ⟨t, (stepEvent_of_decoded hfault hd).trans ht, exec_keeps_inv ht hs⟩

theorem applyEvent_keeps_inv (e : Event) {s : State} (hs : Inv s) : ∃ t, applyEvent e s = .next t ∧ Inv t := by
  cases e with
  | reset => exact ⟨s.doReset, rfl, inv_reset.pc, inv_reset.sp, inv_reset.stack, inv_reset.mem⟩
  | load rom => exact ⟨s.doLoad rom, rfl, doLoad_keeps_inv rom hs⟩
  | step => exact stepEvent_keeps_inv hs
  | tick60 => exact ⟨s.doTick, rfl, hs.pc, hs.sp, hs.stack, hs.mem⟩
  | keyDown k => exact ⟨s.doKeyDown k, rfl, hs.pc, hs.sp, hs.stack, hs.mem⟩
  | keyUp k => exact ⟨s.doKeyUp k, rfl, hs.pc, hs.sp, hs.stack, hs.mem⟩

/-! ### The timers along a run (R243) -/

/-- DT or ST: a part of the state that TICK60 counts down. -/
structure IsTimer (p : Part) (timer : State → Byte) : Prop where
  part : p = .dt ∨ p = .st
  same : ∀ {s t : State}, SamePart p s t → timer t = timer s
  tick : ∀ s : State, timer s.doTick = tickDown (timer s)

theorem isTimer_dt : IsTimer .dt State.dt := ⟨.inl rfl, id, fun _ => rfl⟩

theorem isTimer_st : IsTimer .st State.st := ⟨.inr rfl, id, fun _ => rfl⟩

/-- A timer after a step that neither initialises the core nor executes an instruction that writes the timer. -/
theorem step_timer {p : Part} {timer : State → Byte} (ht : IsTimer p timer) {s t : State} (h : step s = .next t)
    (hinit : ¬ Initialises s) (hexec : ∀ i, Executes s i → p ∉ writtenParts i) :
    (timer t).toNat = (timer s).toNat - [s.takeEvent.1].count .tick60 := by
  have hraise : p ∉ [.fault, .schedule] := by obtain h | h := ht.part <;> simp [h]
  have hkeypad : p ∉ [.held, .edge, .schedule] := by obtain h | h := ht.part <;> simp [h]
  have hidle : ∀ {t : State}, s.takeEvent.1 ≠ .tick60 → SamePart p s t →
      (timer t).toNat = (timer s).toNat - [s.takeEvent.1].count .tick60 := fun hev hsame => by
    simp [ht.same hsame, hev]
  cases step_stepsTo h with
  | cleared hi | refused hi => exact absurd hi hinit
  | halted hev => exact hidle (by simp [hev]) ((Keeps.of_timers_or_keypad (regs := []) s).part p hkeypad)
  | reserved hev => exact hidle (by simp [hev]) ((Keeps.of_schedule_raise s _ _).part p hraise)
  | @executed i _ hi h =>
    have hp : p ∉ .schedule :: writtenParts i := by simpa using ⟨fun e => hraise (by simp [e]), hexec _ hi⟩
    exact hidle (by simp [hi.1]) ((exec_keeps h).of_schedule.part p hp)
  | ticked hev =>
    have htail : timer { s with schedule := s.schedule.tail } = timer s :=
      ht.same ((Keeps.of_timers_or_keypad (regs := []) s).part p hkeypad)
    simp [hev, ht.tick, tickDown_toNat, htail]
  | keyed k hev =>
    have hne : s.takeEvent.1 ≠ .tick60 := by obtain h | h := hev <;> simp [h]
    exact hidle hne ((Keeps.of_timers_or_keypad (regs := []) s).part p hkeypad)

theorem timer_of_run {timer : State → Byte} {ok : State → Prop}
    (hstep : ∀ {s t : State}, ok s → step s = .next t →
      (timer t).toNat = (timer s).toNat - [s.takeEvent.1].count .tick60)
    {s t : State} {es : List Event} (h : Run ok s es t) :
    (timer t).toNat = (timer s).toNat - es.count .tick60 := by
  induction h with
  | done s => simp
  | @more s u t es here now later ih =>
    have hone := hstep here now
    simp only [List.count_cons, List.count_nil] at hone ⊢
    omega

theorem dt_mem_writtenParts {i : Instr} (h : .dt ∈ writtenParts i) : ∃ x, i = .ldDtVx x := by
  cases i <;> simp_all [writtenParts]

theorem st_mem_writtenParts {i : Instr} (h : .st ∈ writtenParts i) : ∃ x, i = .ldStVx x := by
  cases i <;> simp_all [writtenParts]

end Sys2Proof.Safety

namespace Sys2Proof.Proofs
open Sys2Proof Sys2Proof.Machine Sys2Proof.Safety

/-- Settles O6: with a STEP scheduled or with nothing scheduled the event is STEP, and its running branch is `exec`
(R234). -/
theorem stepRunsTheDecodedInstruction : Obligations.StepRunsTheDecodedInstruction := by
  unfold Obligations.StepRunsTheDecodedInstruction
  intro s i rest hrun hd
  constructor
  · intro hnil
    rw [step_of_nil hnil, stepEvent_of_decoded hrun hd]
  · intro hcons
    rw [step_of_cons hcons]
    exact stepEvent_of_decoded hrun hd

/-- Settles O8: the halted branch of the event STEP answers the state it is given (R228). -/
theorem haltedCoreExecutesNothing : Obligations.HaltedCoreExecutesNothing := by
  unfold Obligations.HaltedCoreExecutesNothing
  intro s k rest hfault
  constructor
  · intro hnil
    rw [step_of_nil hnil, stepEvent_of_halted hfault]
  · intro hcons
    rw [step_of_cons hcons]
    exact stepEvent_of_halted hfault

/-- Settles O7: the fetch reads back the two bytes placed at PC and PC + 1, and these are the table's word (R64,
R73). -/
theorem placedWordIsExecutedNext : Obligations.PlacedWordIsExecutedNext := by
  unfold Obligations.PlacedWordIsExecutedNext
  intro s nbits w i hw
  have hd : decode (s.withFetchWord nbits w).fetchWord = .ok i := by
    rw [State.withFetchWord, State.fetchWord_placeAtPc]
    exact decodeTableWord_eq_some.mp hw
  rw [step_of_nil rfl, stepEvent_of_decoded rfl hd]

/-- Settles O9: a reserved word decodes to an error, and the STEP then sets FAULT alone (R221, R224). -/
theorem reservedWordRaisesDecodeFault : Obligations.ReservedWordRaisesDecodeFault := by
  unfold Obligations.ReservedWordRaisesDecodeFault
  intro s hrun hev hres
  obtain ⟨e, hd⟩ := (decode_eq_error_iff _).mpr hres
  refine ⟨State.raise { s with schedule := s.schedule.tail } .decodeFault, ?_, rfl, rfl, rfl,
    .of_schedule_raise s _ _⟩
  rw [step_eq, hev]
  exact stepEvent_of_reserved hrun hd

/-- Settles O10: of all a step can do, only the fetch of a reserved word, RET and CALL set FAULT in a running core,
and each of them is `State.raise` (R220 to R224). -/
theorem faultsHaveThreeCausesAndArePrecise : Obligations.FaultsHaveThreeCausesAndArePrecise := by
  unfold Obligations.FaultsHaveThreeCausesAndArePrecise
  intro s t k hrun h hk
  have hnone : s.fault ≠ some k := by simp [show s.fault = none from hrun]
  cases step_stepsTo h with
  | cleared _ hclear => simp [hclear] at hk
  | refused | ticked | keyed => exact absurd hk hnone
  | halted _ hhalt => exact absurd hrun hhalt
  | reserved hev _ hword =>
    cases hk
    exact ⟨hev, .inl ⟨rfl, hword⟩, rfl, .of_schedule_raise s _ _⟩
  | executed hi h =>
    obtain ⟨hsame, -⟩ | ⟨rfl, hsp, rfl⟩ | ⟨nnn, rfl, hsp, rfl⟩ := exec_fault h
    · exact absurd (hsame ▸ hk) hnone
    · cases hk
      exact ⟨hi.1, .inr (.inl ⟨rfl, hi, hsp⟩), rfl, .of_schedule_raise s _ _⟩
    · cases hk
      exact ⟨hi.1, .inr (.inr ⟨rfl, hsp, nnn, hi⟩), rfl, .of_schedule_raise s _ _⟩

/-- Settles O11: in the halt a step is RESET, a LOAD, an idle STEP, TICK60 or a KEY event, and these last change no
more than the statement allows (R227, R228). -/
theorem haltIsLeftOnlyByResetOrLoad : Obligations.HaltIsLeftOnlyByResetOrLoad := by
  unfold Obligations.HaltIsLeftOnlyByResetOrLoad
  intro s t k hfault hinit h
  have hhalt : ¬ Running s := by simp [Running, hfault]
  cases step_stepsTo h with
  | cleared hi | refused hi => exact absurd hi hinit
  | reserved _ hrun => exact absurd hrun hhalt
  | executed hi => exact absurd hi.2.1 hhalt
  | halted | ticked | keyed => exact ⟨hfault, rfl, .of_timers_or_keypad s⟩

/-- Settles O20: by induction on the run, one timer at a time; the only instruction that writes the timer is the one
the run leaves out (R243, R39). -/
theorem timersCountTheTicksOfARun : Obligations.TimersCountTheTicksOfARun := by
  unfold Obligations.TimersCountTheTicksOfARun
  constructor
  · intro s t es
    refine timer_of_run fun ⟨hinit, hexec⟩ h => step_timer isTimer_dt h hinit fun i hi hw => ?_
    obtain ⟨x, rfl⟩ := dt_mem_writtenParts hw
    exact hexec x hi
  · intro s t es
    refine timer_of_run fun ⟨hinit, hexec⟩ h => step_timer isTimer_st h hinit fun i hi hw => ?_
    obtain ⟨x, rfl⟩ := st_mem_writtenParts hw
    exact hexec x hi

/-- Settles O12: a tick is a subtraction that stops at 0 (R237). -/
theorem tickCountsBothTimersDown : Obligations.TickCountsBothTimersDown := by
  unfold Obligations.TickCountsBothTimersDown
  intro s rest hs
  exact ⟨_, step_of_cons hs, tickDown_toNat _, tickDown_toNat _, rfl, rfl, .of_timers_or_keypad s⟩

/-- Settles O13: KEY_DOWN sets one bit of HELD, and tests that bit as it was for the edge (R235). -/
theorem keyDownRecordsAnEdgeFromUpToDown : Obligations.KeyDownRecordsAnEdgeFromUpToDown := by
  unfold Obligations.KeyDownRecordsAnEdgeFromUpToDown
  intro s h rest hs
  refine ⟨_, step_of_cons hs, fun k => ?held, fun hup => ?pressed, fun hdown => ?repeated, rfl, rfl,
    .of_timers_or_keypad s⟩
  case held =>
    show (s.held ||| (1#16 <<< h.val)).getLsbD k.val = _
    rw [BitVec.getLsbD_or, keyBit_getLsbD, Bool.or_comm]
  case pressed => exact if_neg (by rw [State.isHeld, hup]; decide)
  case repeated => exact if_pos hdown

/-- Settles O14: KEY_UP clears one bit of HELD (R236). -/
theorem keyUpReleasesTheKeyAndKeepsTheEdge : Obligations.KeyUpReleasesTheKeyAndKeepsTheEdge := by
  unfold Obligations.KeyUpReleasesTheKeyAndKeepsTheEdge
  intro s h rest hs
  refine ⟨_, step_of_cons hs, fun k => ?held, rfl, rfl, .of_timers_or_keypad s⟩
  show (s.held &&& ~~~(1#16 <<< h.val)).getLsbD k.val = _
  rw [BitVec.getLsbD_and, BitVec.getLsbD_not, keyBit_getLsbD, Bool.and_comm]
  simp [k.isLt]

/-- Settles O16: the refused branch of LOAD answers the state it is given (R264). -/
theorem oversizeLoadChangesNothing : Obligations.OversizeLoadChangesNothing := by
  unfold Obligations.OversizeLoadChangesNothing
  intro s rom rest hs hover
  refine ⟨loadAnswer_of_oversize hover, { s with schedule := rest }, ?_, rfl, rfl, .of_timers_or_keypad s⟩
  rw [step_of_cons hs]
  exact congrArg _ (State.doLoad_of_oversize _ hover)

/-- Settles O15: an image of at most 3584 bytes ends at 4096 or below, so the law of `State.storeImage` applies; the
other fields are those of the reset state, or the old ones (R261). -/
theorem loadCopiesTheImageAndClearsTheRest : Obligations.LoadCopiesTheImageAndClearsTheRest := by
  unfold Obligations.LoadCopiesTheImageAndClearsTheRest
  intro s rom rest hs hfits
  generalize hu : ({ s with schedule := rest } : State) = u
  have hstep : step s = .next (u.storeImage 0x200 rom).clearForLoad := by
    rw [step_of_cons hs, hu]
    exact congrArg _ (State.doLoad_of_fits _ hfits)
  obtain ⟨hin, hout⟩ := u.memRead_storeImage 0x200 rom (by omega)
  rw [State.storeImage_eq] at hstep
  subst hu
  exact ⟨loadAnswer_of_fits hfits, _, hstep, hin, hout, rfl, State.reg_reset, rfl, rfl, State.stack_reset, rfl, rfl,
    Framebuffer.pixel_blank, rfl, rfl, rfl, rfl, rfl⟩

/-- Settles O17: RESET answers the reset state but for the model's own two fields, and each field is read off it
(R260). -/
theorem resetRestoresEveryPieceOfState : Obligations.ResetRestoresEveryPieceOfState := by
  unfold Obligations.ResetRestoresEveryPieceOfState
  intro s rest hs
  exact ⟨_, step_of_cons hs, rfl, State.memRead_reset, Framebuffer.pixel_blank, State.reg_reset, State.stack_reset,
    rfl, rfl, rfl, rfl, rfl, rfl, rfl, rfl⟩

/-- Settles O19: in a step that executes no Fx18, ST is counted down by a tick, or cleared by RESET or LOAD, or kept
(R240). -/
theorem audioFollowsTheSoundTimer : Obligations.AudioFollowsTheSoundTimer := by
  unfold Obligations.AudioFollowsTheSoundTimer
  refine ⟨State.audioOn_iff, fun s t h => ?_⟩
  simp only [State.audioOn_iff, State.audioOn_eq_false_iff]
  by_cases hset : ∃ x, Executes s (.ldStVx x)
  · obtain ⟨x, hx⟩ := hset
    have hst : t.st = s.reg x := by
      obtain rfl := Host.Outcome.next.inj ((step_of_executes hx).symm.trans h)
      rfl
    refine ⟨fun _ ht => ⟨x, hx, fun h0 => ?_, hst⟩, fun _ ht => .inr (.inl ⟨x, hx, ?_⟩)⟩
    · simp [hst, h0] at ht
    · exact hst ▸ BitVec.eq_of_toNat_eq ht
  by_cases hinit : Initialises s
  · refine ⟨fun hs ht => ?_, fun _ _ => .inr (.inr hinit)⟩
    obtain ⟨-, hst⟩ | rfl := step_of_initialises hinit h
    · simp [hst] at ht
    · exact absurd hs (Nat.ne_of_gt ht)
  · have hst := step_timer isTimer_st h hinit fun i hi hw => by
      obtain ⟨x, rfl⟩ := st_mem_writtenParts hw
      exact hset ⟨x, hi⟩
    refine ⟨fun hs ht => by omega, fun hs ht => .inl ?_⟩
    by_cases htick : s.takeEvent.1 = .tick60
    · simp only [htick, List.count_singleton_self] at hst
      exact ⟨htick, by omega⟩
    · simp only [List.count_singleton, beq_iff_eq, htick, if_false] at hst
      omega

/-- Settles O52: the values of the reset state, evaluated (R37, R38). -/
theorem resetStateMeetsTheInvariant : Obligations.ResetStateMeetsTheInvariant := by
  unfold Obligations.ResetStateMeetsTheInvariant
  exact ⟨inv_reset, rfl, rfl⟩

/-- Settles O53: an event of every kind keeps the invariant, and taking it off the schedule touches no part of it
(R37). -/
theorem everyEventKeepsTheInvariant : Obligations.EveryEventKeepsTheInvariant := by
  unfold Obligations.EveryEventKeepsTheInvariant
  intro s hs
  rw [step_eq]
  exact applyEvent_keeps_inv _ ⟨hs.pc, hs.sp, hs.stack, hs.mem⟩

/-- Settles O60: a STEP executes the jump to itself, which changes nothing (R123); TICK60 and the KEY events leave PC,
RAM and FAULT alone, all that `Finished` looks at. -/
theorem finishedProgramStaysFinished : Obligations.FinishedProgramStaysFinished := by
  unfold Obligations.FinishedProgramStaysFinished
  intro s hfin hinit
  obtain ⟨hrun, nnn, hd, hself⟩ := id hfin
  cases hev : s.takeEvent.1 with
  | reset => exact absurd (.inl hev) hinit
  | load rom => exact absurd (.inr ⟨rom, hev⟩) hinit
  | step =>
    refine ⟨{ s with schedule := s.schedule.tail }, ?_, hfin, rfl, fun _ => rfl, .of_timers_or_keypad s⟩
    rw [step_of_executes ⟨hev, hrun, hd⟩]
    exact (jumpGoesToTheAddress nnn _).2 hself
  | tick60 | keyDown k | keyUp k =>
    have hstep := step_eq s
    rw [hev] at hstep
    exact ⟨_, hstep, hfin, rfl, nofun, .of_timers_or_keypad s⟩

end Sys2Proof.Proofs

/-! ## The other statements about single instructions (spec/41_alu.md to spec/44_timer_index_memory.md) -/

namespace Sys2Proof.Proofs
open Sys2Proof Sys2Proof.Machine Sys2Proof.Safety

/-- Settles O33: each of the three writes Vx alone and advances, and the operations of `BitVec` act bit by bit (R154
to R156). -/
theorem logicActsBitwiseWithoutFlag : Obligations.LogicActsBitwiseWithoutFlag := by
  unfold Obligations.LogicActsBitwiseWithoutFlag
  intro x y s
  refine ⟨⟨_, rfl, .of_advance rfl, .of_setReg_advance s x _, fun k => ?or⟩,
    ⟨_, rfl, .of_advance rfl, .of_setReg_advance s x _, fun k => ?and⟩,
    ⟨_, rfl, .of_advance rfl, .of_setReg_advance s x _, fun k => ?xor⟩⟩ <;>
    rw [State.advance_reg, State.reg_setReg_same]
  case or => exact BitVec.getLsbD_or
  case and => exact BitVec.getLsbD_and
  case xor => exact BitVec.getLsbD_xor

/-- Settles O37: Cxkk writes the byte masked by kk, whatever the byte is, and counts one draw (R163, R164). -/
theorem randomIsMaskedByTheImmediate : Obligations.RandomIsMaskedByTheImmediate := by
  unfold Obligations.RandomIsMaskedByTheImmediate
  intro x kk s
  refine ⟨(s.drawn.setReg x (s.randomByte &&& kk)).advance, rfl, ?_, ?_, ?_, rfl, .of_advance rfl,
    ((Keeps.of_stack_or_edge_or_fault_or_draws s).setReg _ (by simp)).setPc _⟩ <;>
    rw [State.advance_reg, State.reg_setReg_same]
  · exact fun k => BitVec.getLsbD_and
  · rintro rfl
    exact BitVec.and_zero
  · rintro rfl
    exact BitVec.and_allOnes

/-- Settles O43: the two equations of Fx0A; a key is below 16, so the byte holds it (R193). -/
theorem waitForKeyRepeatsOrTakesTheEdge : Obligations.WaitForKeyRepeatsOrTakesTheEdge := by
  unfold Obligations.WaitForKeyRepeatsOrTakesTheEdge
  intro x s
  constructor
  · exact exec_ldVxK_of_none x
  · intro k hedge
    refine ⟨_, exec_ldVxK_of_some x hedge, ?_, rfl, .of_advance rfl,
      ((Keeps.of_stack_or_edge_or_fault_or_draws s).setReg _ (by simp)).setPc _⟩
    rw [State.advance_reg, State.reg_setReg_same]
    exact Nat.mod_eq_of_lt (by omega)

/-- Settles O51: what Fx65 loads is what Fx55 stored, since I and the bytes between are the same (R208 to R210). -/
theorem storeThenLoadRestoresTheRegisters : Obligations.StoreThenLoadRestoresTheRegisters := by
  unfold Obligations.StoreThenLoadRestoresTheRegisters
  intro x s t u v hstore hi hsame hload r hr
  obtain ⟨t', ht', hstored, -⟩ := storeRegistersWritesV0ToVx x s
  obtain ⟨v', hv', hloaded, -, -, hkeeps⟩ := loadRegistersReadsV0ToVx x u
  obtain rfl : t' = t := Host.Outcome.next.inj (ht'.symm.trans hstore)
  obtain rfl : v' = v := Host.Outcome.next.inj (hv'.symm.trans hload)
  have hmem : u.memRead (s.i.toNat + r.val) = s.reg r := (hsame r hr).trans (hstored r hr)
  exact ⟨(hloaded r hr).trans (hi ▸ hmem), (hkeeps.part .ram (by simp) _).trans hmem⟩

/-- Settles O41: the first draw changes neither coordinate, I nor RAM, so the second flips the same pixels by the same
bits, and under a 1 bit it meets the opposite of the pixel as it was (R183, C7). -/
theorem drawingTwiceRestoresTheFramebuffer : Obligations.DrawingTwiceRestoresTheFramebuffer := by
  unfold Obligations.DrawingTwiceRestoresTheFramebuffer
  intro x y n s hx hy
  obtain ⟨t, ht, hflip, hkept, -, -, -, hst⟩ := drawFlipsThePixelsUnderTheSprite x y n s
  obtain ⟨u, hu, hflip', hkept', hhit, -⟩ := drawFlipsThePixelsUnderTheSprite x y n t
  have hreg : ∀ r, r ≠ Reg.vf → t.reg r = s.reg r := fun r hr => hst.reg r (by simpa using hr)
  have hi : t.i = s.i := hst.part .i (by simp)
  have hram : ∀ a, t.memRead a = s.memRead a := hst.part .ram (by simp)
  simp only [hreg x hx, hreg y hy, hi, hram] at hflip' hkept' hhit
  refine ⟨t, u, ht, hu, fun py px => ?_, hhit.trans ?_⟩
  · by_cases h : ∃ r c, r < n.val ∧ c < 8 ∧ py = rowAt ((s.reg y).toNat + r) ∧ px = colAt ((s.reg x).toNat + c)
    · obtain ⟨r, c, hr, hc, rfl, rfl⟩ := h
      rw [hflip' r c hr hc, hflip r c hr hc, Bool.xor_assoc, Bool.xor_self, Bool.xor_false]
    · have hout : ∀ r c, r < n.val → c < 8 →
          ¬ (py = rowAt ((s.reg y).toNat + r) ∧ px = colAt ((s.reg x).toNat + c)) :=
        fun r c hr hc hp => h ⟨r, c, hr, hc, hp⟩
      rw [hkept' py px hout, hkept py px hout]
  · refine exists_congr fun r => exists_congr fun c => ?_
    refine and_congr_right fun hr => and_congr_right fun hc => and_congr_right fun hbit => ?_
    rw [hflip r c hr hc, hbit, Bool.xor_true, Bool.not_eq_true']

end Sys2Proof.Proofs

/-! ## What cannot be observed (spec/10_state.md R26, R28, R29) -/

namespace Sys2Proof.Machine

/-- The state with other values in ST, I and STACK. -/
def State.disguise (s : State) (st : Byte) (i : Word) (stack : Vector Word 16) : State :=
  { s with st := st, i := i, stack := stack }

theorem State.takeEvent_disguise (s : State) (st : Byte) (i : Word) (stack : Vector Word 16) :
    (s.disguise st i stack).takeEvent.1 = s.takeEvent.1 := by
  cases hs : s.schedule with
  | nil => rw [State.takeEvent_nil hs, State.takeEvent_nil (s := s.disguise st i stack) hs]
  | cons e es => rw [State.takeEvent_cons hs, State.takeEvent_cons (s := s.disguise st i stack) hs]

theorem State.ea_disguise (s : State) {i : Word} (hi : i.toNat % 4096 = s.i.toNat % 4096) (st : Byte)
    (stack : Vector Word 16) (k : Nat) : (s.disguise st i stack).ea k = s.ea k := by
  show (i.toNat + k) % 4096 = (s.i.toNat + k) % 4096
  omega

theorem State.storeRegs_disguise (s : State) {i : Word} (hi : i.toNat % 4096 = s.i.toNat % 4096) (st : Byte)
    (stack : Vector Word 16) (n : Nat) :
    (s.disguise st i stack).storeRegs n = (s.storeRegs n).disguise st i stack := by
  induction n with
  | zero => rfl
  | succ n ih => rw [State.storeRegs, ih, State.ea_disguise s hi]; rfl

theorem State.loadRegs_disguise (s : State) {i : Word} (hi : i.toNat % 4096 = s.i.toNat % 4096) (st : Byte)
    (stack : Vector Word 16) (n : Nat) :
    (s.disguise st i stack).loadRegs n = (s.loadRegs n).disguise st i stack := by
  induction n with
  | zero => rfl
  | succ n ih => rw [State.loadRegs, ih, State.ea_disguise s hi]; rfl

theorem State.storeImage_disguise (s : State) (st : Byte) (i : Word) (stack : Vector Word 16) (a : Nat)
    (rom : List Byte) :
    (s.disguise st i stack).storeImage a rom = (s.storeImage a rom).disguise st i stack := by
  induction rom generalizing s a with
  | nil => rfl
  | cons b rom ih => exact ih (s.memWrite a b) (a + 1)

end Sys2Proof.Machine

namespace Sys2Proof.Safety
open Sys2Proof.Machine

/-- `st`, `i` and `stack` may stand in `s` for its own ST, I and STACK: each is equal to it or among the parts `hidden`,
and then I still agrees modulo 4096 and STACK below SP. -/
structure Disguise (hidden : List Part) (s : State) (st : Byte) (i : Word) (stack : Vector Word 16) : Prop where
  timer : .st ∉ hidden → st = s.st
  index : .i ∉ hidden → i = s.i
  address : i.toNat % 4096 = s.i.toNat % 4096
  slots : .stack ∉ hidden → stack = s.stack
  live : ∀ k : Fin 16, k.val < s.sp.toNat → stack[k.val] = s.stack[k.val]

/-- The states differ in the parts `hidden` alone, and in these only where nothing can look. -/
def SameUpTo (hidden : List Part) (s t : State) : Prop :=
  t = s.disguise t.st t.i t.stack ∧ Disguise hidden s t.st t.i t.stack

theorem SameUpTo.refl (hidden : List Part) (s : State) : SameUpTo hidden s s :=
  ⟨rfl, fun _ => rfl, fun _ => rfl, rfl, fun _ => rfl, fun _ _ => rfl⟩

section
variable {hidden : List Part} {s : State} {st : Byte} {j : Word} {stack : Vector Word 16}

/-- RET reads the slot below SP, a live one; the slot it leaves is dead afterwards. -/
theorem exec_ret_alike (h : Disguise hidden s st j stack) :
    Alike (SameUpTo hidden) (exec .ret s) (exec .ret (s.disguise st j stack)) := by
  obtain ⟨hst, hi, haddr, hstack, hlive⟩ := id h
  obtain hempty | hpos := Nat.eq_zero_or_pos s.sp.toNat
  · rw [exec_ret_of_empty hempty, exec_ret_of_empty (s := s.disguise st j stack) hempty]
    exact .next ⟨rfl, hst, hi, haddr, hstack, hlive⟩
  obtain hgt | hle := Nat.lt_or_ge 16 s.sp.toNat
  · rw [exec_ret_of_gt hgt, exec_ret_of_gt (s := s.disguise st j stack) hgt]
    exact .fault _
  · rw [exec_ret_of_nonempty hpos hle, exec_ret_of_nonempty (s := s.disguise st j stack) hpos hle]
    have hpopped : stack[s.sp.toNat - 1]'(by omega) = s.stack[s.sp.toNat - 1]'(by omega) :=
      hlive ⟨s.sp.toNat - 1, by omega⟩ (Nat.sub_lt hpos Nat.one_pos)
    refine .next ⟨?_, hst, hi, haddr, hstack, fun k hk => hlive k (Nat.lt_of_lt_of_le hk ?_)⟩
    · simp only [State.disguise, hpopped]
      rfl
    · exact (sp_sub_one_toNat hpos).trans_le (Nat.sub_le _ _)

/-- CALL writes the slot at SP, which is live afterwards, with the same address in both states. -/
theorem exec_call_alike (h : Disguise hidden s st j stack) (nnn : Addr12) :
    Alike (SameUpTo hidden) (exec (.call nnn) s) (exec (.call nnn) (s.disguise st j stack)) := by
  obtain ⟨hst, hi, haddr, hstack, hlive⟩ := id h
  obtain hroom | hfull | hgt := Nat.lt_trichotomy s.sp.toNat 16
  · rw [exec_call_of_room nnn hroom, exec_call_of_room nnn (s := s.disguise st j stack) hroom]
    refine .next ⟨rfl, hst, hi, haddr, fun hs => ?_, fun k hk => ?_⟩
    · exact congrArg (fun v : Vector Word 16 => v.set s.sp.toNat s.pc hroom) (hstack hs)
    · refine (stack_set_getElem _ hroom _ k).trans (.trans ?_ (stack_set_getElem _ hroom _ k).symm)
      have hk : k.val < s.sp.toNat + 1 := sp_add_one_toNat hroom ▸ hk
      split
      · rfl
      · exact hlive k (by omega)
  · rw [exec_call_of_full nnn hfull, exec_call_of_full nnn (s := s.disguise st j stack) hfull]
    exact .next ⟨rfl, hst, hi, haddr, hstack, hlive⟩
  · rw [exec_call_of_gt nnn hgt, exec_call_of_gt nnn (s := s.disguise st j stack) hgt]
    exact .fault _

/-- ST, I and STACK are read nowhere else than this: I only modulo 4096 or to be added to, and the live slots by RET. -/
theorem exec_alike (h : Disguise hidden s st j stack) (i : Instr) :
    Alike (SameUpTo hidden) (exec i s) (exec i (s.disguise st j stack)) := by
  obtain ⟨hst, hi, haddr, hstack, hlive⟩ := id h
  cases i
  case ret => exact exec_ret_alike h
  case call nnn => exact exec_call_alike h nnn
  case ldVxK x =>
    cases hedge : s.edge with
    | none =>
      rw [exec_ldVxK_of_none x hedge, exec_ldVxK_of_none x (s := s.disguise st j stack) hedge]
      exact .next ⟨rfl, h⟩
    | some k =>
      rw [exec_ldVxK_of_some x hedge, exec_ldVxK_of_some x (s := s.disguise st j stack) hedge]
      exact .next ⟨rfl, hst, hi, haddr, hstack, hlive⟩
  case drw x y n =>
    refine .next ⟨?_, hst, hi, haddr, hstack, hlive⟩
    rw [Blit.rows_congr (t := s.disguise st j stack) haddr rfl]
    rfl
  case ldStVx => exact .next ⟨rfl, fun _ => rfl, hi, haddr, hstack, hlive⟩
  case ldI | ldFVx => exact .next ⟨rfl, hst, fun _ => rfl, rfl, hstack, hlive⟩
  case addIVx x =>
    refine .next ⟨rfl, hst, fun hp => congrArg (· + (s.reg x).setWidth 16) (hi hp), ?_, hstack, hlive⟩
    show (j + (s.reg x).setWidth 16).toNat % 4096 = (s.i + (s.reg x).setWidth 16).toNat % 4096
    rw [addByte_toNat, addByte_toNat]
    omega
  case ldBVx =>
    refine .next ⟨?_, hst, hi, haddr, hstack, hlive⟩
    simp only [State.ea_disguise s haddr]
    rfl
  case ldMemVx =>
    show Alike _ (.next (s.storeRegs _).advance) (.next ((s.disguise st j stack).storeRegs _).advance)
    rw [State.storeRegs_disguise s haddr, State.storeRegs_eq]
    exact .next ⟨rfl, hst, hi, haddr, hstack, hlive⟩
  case ldVxMem =>
    show Alike _ (.next (s.loadRegs _).advance) (.next ((s.disguise st j stack).loadRegs _).advance)
    rw [State.loadRegs_disguise s haddr, State.loadRegs_eq]
    exact .next ⟨rfl, hst, hi, haddr, hstack, hlive⟩
  all_goals exact .next ⟨rfl, hst, hi, haddr, hstack, hlive⟩

theorem stepEvent_alike (h : Disguise hidden s st j stack) :
    Alike (SameUpTo hidden) (stepEvent s) (stepEvent (s.disguise st j stack)) := by
  obtain ⟨hst, hi, haddr, hstack, hlive⟩ := id h
  cases hfault : s.fault with
  | some k =>
    rw [stepEvent_of_halted hfault, stepEvent_of_halted (s := s.disguise st j stack) hfault]
    exact .next ⟨rfl, h⟩
  | none =>
    cases hd : decode s.fetchWord with
    | error e =>
      rw [stepEvent_of_reserved hfault hd, stepEvent_of_reserved (s := s.disguise st j stack) hfault hd]
      exact .next ⟨rfl, hst, hi, haddr, hstack, hlive⟩
    | ok i =>
      rw [stepEvent_of_decoded hfault hd, stepEvent_of_decoded (s := s.disguise st j stack) hfault hd]
      exact exec_alike h i

theorem applyEvent_alike (h : Disguise hidden s st j stack) (e : Event) :
    Alike (SameUpTo hidden) (applyEvent e s) (applyEvent e (s.disguise st j stack)) := by
  obtain ⟨hst, hi, haddr, hstack, hlive⟩ := id h
  cases e with
  | reset => exact .next (SameUpTo.refl hidden s.doReset)
  | load rom =>
    show Alike _ (.next (s.doLoad rom)) (.next ((s.disguise st j stack).doLoad rom))
    obtain hover | hfits := Nat.lt_or_ge 3584 rom.length
    · rw [State.doLoad_of_oversize _ hover, State.doLoad_of_oversize _ hover]
      exact .next ⟨rfl, h⟩
    · rw [State.doLoad_of_fits _ hfits, State.doLoad_of_fits _ hfits, State.storeImage_disguise]
      exact .next (SameUpTo.refl hidden _)
  | step => exact stepEvent_alike h
  | tick60 => exact .next ⟨rfl, fun hp => congrArg tickDown (hst hp), hi, haddr, hstack, hlive⟩
  | keyDown k | keyUp k => exact .next ⟨rfl, hst, hi, haddr, hstack, hlive⟩

end

/-- Whatever is hidden of ST, the upper bits of I and the dead slots, no event reveals it. -/
theorem simulates_sameUpTo (hidden : List Part) : Simulates (SameUpTo hidden) := by
  rintro s s' ⟨hs', hst, hi, haddr, hstack, hlive⟩
  rw [hs', step_eq, step_eq, State.takeEvent_disguise]
  exact applyEvent_alike (s := { s with schedule := s.schedule.tail }) ⟨hst, hi, haddr, hstack, hlive⟩ s.takeEvent.1

theorem sameButSt_eq : SameButSt = SameUpTo [.st] := by
  funext s t
  refine propext ⟨fun h => ?_, fun ⟨ht, hd⟩ => ?_⟩
  · rw [SameButSt] at h
    generalize t.st = st at h
    subst h
    exact ⟨rfl, by simp, fun _ => rfl, rfl, fun _ => rfl, fun _ _ => rfl⟩
  · rwa [hd.index (by simp), hd.slots (by simp)] at ht

theorem sameButHighI_eq : SameButHighI = SameUpTo [.i] := by
  funext s t
  refine propext ⟨fun ⟨h, haddr⟩ => ?_, fun ⟨ht, hd⟩ => ⟨?_, hd.address⟩⟩
  · generalize t.i = i at h haddr
    subst h
    exact ⟨rfl, fun _ => rfl, by simp, haddr, fun _ => rfl, fun _ _ => rfl⟩
  · rwa [hd.timer (by simp), hd.slots (by simp)] at ht

theorem sameButDeadSlots_eq : SameButDeadSlots = SameUpTo [.stack] := by
  funext s t
  refine propext ⟨fun ⟨h, hlive⟩ => ?_, fun ⟨ht, hd⟩ => ⟨?_, hd.live⟩⟩
  · generalize t.stack = stack at h hlive
    subst h
    exact ⟨rfl, fun _ => rfl, fun _ => rfl, rfl, by simp, hlive⟩
  · rwa [hd.timer (by simp), hd.index (by simp)] at ht

end Sys2Proof.Safety

namespace Sys2Proof.Proofs
open Sys2Proof Sys2Proof.Machine Sys2Proof.Safety

/-- Settles O57: of the three parts that cannot be observed, hide ST (R29). -/
theorem soundTimerIsNeverRead : Obligations.SoundTimerIsNeverRead := by
  unfold Obligations.SoundTimerIsNeverRead
  exact sameButSt_eq ▸ simulates_sameUpTo [.st]

/-- Settles O58: of the three parts that cannot be observed, hide the upper bits of I (R26). -/
theorem upperBitsOfIndexAreUnobservable : Obligations.UpperBitsOfIndexAreUnobservable := by
  unfold Obligations.UpperBitsOfIndexAreUnobservable
  exact sameButHighI_eq ▸ simulates_sameUpTo [.i]

/-- Settles O59: of the three parts that cannot be observed, hide the dead slots of STACK (R28). -/
theorem deadStackSlotsAreUnobservable : Obligations.DeadStackSlotsAreUnobservable := by
  unfold Obligations.DeadStackSlotsAreUnobservable
  exact sameButDeadSlots_eq ▸ simulates_sameUpTo [.stack]

end Sys2Proof.Proofs
